-- ==== Sys2Proof/Word.lean ====
section
/-! DEFINITION. The word types of the block: `spec/00_scope.md` R9, R10, R11 (every value is unsigned, bit 0 is the
least significant bit). -/

namespace Sys2Proof

/-- A byte, 8 bits (R9). -/
abbrev Byte := BitVec 8

/-- A clock value in microseconds, 64 bits (`TIME_WIDTH`, R9). -/
abbrev Time := BitVec 64

/-- A frame length, held in 4 bits (R9; `len`, `last_len`, the operands `n` and `L`, and a FrameResult). -/
abbrev Len := BitVec 4

/-- A command word `cmd[11:0]` (R72). -/
abbrev Cmd := BitVec 12

/-- The checksum accumulator, 9 bits (R9, R34). -/
abbrev Acc := BitVec 9

end Sys2Proof
end

