-- ==== Sys2Proof/Config.lean ====
section
/-! DEFINITION. The constants the protocol fixes (`spec/00_scope.md` R6) and the one parameter of an instance
(R7). -/

namespace Sys2Proof.Config

/-- `SYNC_BYTE`, the only byte accepted at frame position 0 (R6). -/
abbrev syncByte : Byte := 0x55

/-- `MAX_FRAME_BYTES`, the capacity of the frame buffer (R6). -/
abbrev maxFrameBytes : Nat := 11

/-- `PID_WILDCARD`, the operand of POLL that accepts any PID (R6, R73). -/
abbrev pidWildcard : Byte := 0x00

/-- `MIN_FRAME_BYTES`, the smallest length reported as `Complete` (R6). -/
abbrev minFrameBytes : Nat := 2

/-- The default of `BREAK_THRESHOLD_MICROS` (R7). -/
abbrev defaultBreakThreshold : Time := 728

end Sys2Proof.Config

namespace Sys2Proof

/-- What an instance is given at instantiation and keeps for its life: `BREAK_THRESHOLD_MICROS`, microseconds
(R7; a parameter and not a register, R26).
DESIGN CHOICE (log 1, safe): the parameters of the instance travel with the state as data no operation writes, so that a
statement about every state is one about every instance. -/
structure Params where
  breakThreshold : Time
deriving DecidableEq, Repr

/-- The parameters of an instance with the default threshold (R7). -/
def Params.default : Params := { breakThreshold := Config.defaultBreakThreshold }

/-- The legal range 1 to 2^64 - 1 of the threshold (R7; 0 is refused at instantiation, U10). -/
abbrev Params.Legal (p : Params) : Prop := p.breakThreshold ≠ 0

end Sys2Proof
end

