-- ==== Sys2Proof/Syntax.lean ====
section
/-! DEFINITION. The twelve operations of the block (`spec/30_encoding.md` R78, `spec/opcode_table.json`), and the
context in which the seven steps of a POLL are selected. -/

namespace Sys2Proof

/-- The decoder state `st` (`10_state.md` R22; a three-constructor type, `30_encoding.md` R82). -/
inductive DecoderState where
  | searchingSync
  | accumulating
  | frameReady
deriving DecidableEq, Repr

/-- Where a POLL in progress stands (`40_frame_decoder.md` R101): in phase 1 with the break check still to come, or
past the break check with only phase 3 left. -/
inductive PollPhase where
  | drain
  | settle
deriving DecidableEq, Repr

/-- A POLL in progress: its operand `expectedPID` and its phase. It exists only inside one POLL (R30, R61). -/
structure Poll where
  pid : Byte
  phase : PollPhase
deriving DecidableEq, Repr

/-- The operations, one constructor for each row of the opcode table. The byte events carry the byte popped by the
drain loop. -/
inductive Instr where
  /-- INIT (R100). -/
  | init
  /-- POLL with its operand `expectedPID` (R101, R73). -/
  | poll (pid : Byte)
  /-- LASTFRAME (R113). -/
  | lastFrame
  /-- CHECKSUM with its operand `n` (R141, R74). -/
  | checksum (n : Len)
  /-- VALIDATE with its operand `L` (R142, R74). -/
  | validate (L : Len)
  /-- B_SYNC_ACCEPT of the byte `b` (R106). -/
  | bSyncAccept (b : Byte)
  /-- B_SYNC_DISCARD of the byte `b` (R105). -/
  | bSyncDiscard (b : Byte)
  /-- B_PID_REJECT of the byte `b` (R107). -/
  | bPidReject (b : Byte)
  /-- B_STORE of the byte `b` (R108). -/
  | bStore (b : Byte)
  /-- T_BREAK (R110). -/
  | tBreak
  /-- DELIVER (R111). -/
  | deliver
  /-- DROP_SHORT (R112). -/
  | dropShort
deriving DecidableEq, Repr

/-- The five operations the host issues; the other seven are the steps a POLL is made of (R78, column "kind"). -/
def Instr.isHost : Instr → Bool
  | .init | .poll _ | .lastFrame | .checksum _ | .validate _ => true
  | .bSyncAccept _ | .bSyncDiscard _ | .bPidReject _ | .bStore _ | .tBreak | .deliver | .dropShort => false

/-- What the selection of an operation reads beside its word (R78, column "selected by"; R86): the POLL in progress
with its operand, the decoder state and the length. -/
structure Context where
  poll : Option Poll
  st : DecoderState
  len : Len
deriving DecidableEq, Repr

end Sys2Proof
end

