-- ==== Sys2Proof/WellFormed.lean ====
section
/-! DEFINITION. Which operations are well formed as terms: the operand ranges of `spec/30_encoding.md` R74, and the
byte each sync event stands for (R78). -/

namespace Sys2Proof

/-- What can be wrong with an operation as a term. -/
inductive IllFormed where
  /-- CHECKSUM with `n > 11` (R74). -/
  | checksumOperand
  /-- VALIDATE with `L < 2` or `L > 11` (R74). -/
  | validateOperand
  /-- B_SYNC_ACCEPT of a byte that is not `0x55` (R78 row 7). -/
  | acceptsNonSync
  /-- B_SYNC_DISCARD of the byte `0x55` (R78 row 6). -/
  | discardsSync
deriving DecidableEq, Repr

/-- The check of one operation; `none` where nothing is wrong. -/
def Instr.check : Instr → Option IllFormed
  | .init => none
  | .poll _ => none
  | .lastFrame => none
  | .checksum n => if n.toNat ≤ 11 then none else some .checksumOperand
  | .validate L => if 2 ≤ L.toNat ∧ L.toNat ≤ 11 then none else some .validateOperand
  | .bSyncAccept b => if b = Config.syncByte then none else some .acceptsNonSync
  | .bSyncDiscard b => if b = Config.syncByte then some .discardsSync else none
  | .bPidReject _ => none
  | .bStore _ => none
  | .tBreak => none
  | .deliver => none
  | .dropShort => none

/-- An operation whose check finds nothing wrong. -/
abbrev WellFormed (i : Instr) : Prop := i.check = none

end Sys2Proof
end

