-- ==== Sys2Proof/Decode.lean ====
section
/-! DEFINITION. Decoding and encoding (`spec/30_encoding.md` sections 2, 4 and 5): command words by R72, received bytes
by the ordered table R79, and the events that have no word by the column "selected by" of R78. -/

namespace Sys2Proof

/-- How an operation is presented: the host by a command word (R72), a byte event by the byte the drain loop popped
(R79), and T_BREAK, DELIVER and DROP_SHORT by nothing but the state and the clock (R78; opcode table, format EVENT). -/
inductive Encoding where
  | cmd (w : Cmd)
  | byte (b : Byte)
  | event
deriving DecidableEq, Repr

/-- Why nothing is decoded. -/
inductive DecodeError where
  /-- `op` in `0x5` .. `0xF` (R80, U2). -/
  | reservedOpcode (op : BitVec 4)
  /-- CHECKSUM or VALIDATE with `arg[7:4] != 0` (R81, U3, U4). -/
  | reservedArgBits
  /-- A byte or an event where no POLL is in progress, or not in that phase (R78: the steps of a POLL cannot be
  issued alone). -/
  | noPollStep
  /-- A byte or an event in a register state the rules never produce (U9). -/
  | outsideRules
deriving DecidableEq, Repr

/-- The field `op = cmd[11:8]` (R72). -/
def cmdOp (w : Cmd) : BitVec 4 := w.extractLsb' 8 4

/-- The field `arg = cmd[7:0]` (R72). -/
def cmdArg (w : Cmd) : Byte := w.extractLsb' 0 8

/-- An operand in `arg[3:0]` with `arg[7:4]` zero (R74, R81). -/
def nibbleOperand (w : Cmd) (mk : Len → Instr) : Except DecodeError Instr :=
  if w.extractLsb' 4 4 = 0 then .ok (mk (w.extractLsb' 0 4)) else .error .reservedArgBits

/-- Decoding a command word (R72, R80, R81). The ranges of `n` and `L` are the operations' own tests (R141, R142). -/
def decodeCmd (w : Cmd) : Except DecodeError Instr :=
  match (cmdOp w).toNat with
  | 0 => .ok .init
  | 1 => .ok (.poll (cmdArg w))
  | 2 => .ok .lastFrame
  | 3 => nibbleOperand w .checksum
  | 4 => nibbleOperand w .validate
  | _ => .error (.reservedOpcode (cmdOp w))

/-- The two ways a byte is taken at `st == Accumulating` (R79 orders 3, 4 and 5). B_STORE has the precondition
`1 <= len <= 10` (R108, R118); outside it no rule speaks (U9). -/
def decodeFrameByte (pid : Byte) (len : Len) (b : Byte) : Except DecodeError Instr :=
  if len.toNat = 0 ∨ 10 < len.toNat then .error .outsideRules
  else if len = 1 ∧ pid ≠ Config.pidWildcard then
    if b = pid then .ok (.bStore b) else .ok (.bPidReject b)
  else .ok (.bStore b)

/-- Decoding a byte popped by the drain loop (R79, R103): the state first, then the sync test or the PID filter. -/
def decodeByte (ctx : Context) (b : Byte) : Except DecodeError Instr :=
  match ctx.poll with
  | some ⟨pid, .drain⟩ =>
    match ctx.st with
    | .searchingSync => if b = Config.syncByte then .ok (.bSyncAccept b) else .ok (.bSyncDiscard b)
    | .accumulating => decodeFrameByte pid ctx.len b
    | .frameReady => .error .noPollStep
  | _ => .error .noPollStep

/-- Selecting the step of a POLL that no word selects (R78 rows 10 to 12; R101 phases 2 and 3): the break check ends
phase 1, and after it a frame that is ready is delivered or dropped. A length above 11 is no state of the rules (U9). -/
def decodeEvent (ctx : Context) : Except DecodeError Instr :=
  match ctx.poll with
  | some ⟨_, .drain⟩ => .ok .tBreak
  | some ⟨_, .settle⟩ =>
    if ctx.st = .frameReady then
      if 11 < ctx.len.toNat then .error .outsideRules
      else if 2 ≤ ctx.len.toNat then .ok .deliver
      else .ok .dropShort
    else .error .noPollStep
  | none => .error .noPollStep

/-- The decoder: total on every word and every byte, in every context. -/
def decode (ctx : Context) : Encoding → Except DecodeError Instr
  | .cmd w => decodeCmd w
  | .byte b => decodeByte ctx b
  | .event => decodeEvent ctx

/-- A command word from its fields, `op ++ arg` (R72). -/
def cmdWord (op : BitVec 4) (arg : Byte) : Cmd := op ++ arg

/-- The encoder (R72, R79). The ignored `arg` of INIT and LASTFRAME is written as zero (R81: ignored, not reserved). -/
def encode : Instr → Encoding
  | .init => .cmd (cmdWord 0x0 0)
  | .poll pid => .cmd (cmdWord 0x1 pid)
  | .lastFrame => .cmd (cmdWord 0x2 0)
  | .checksum n => .cmd (cmdWord 0x3 (n.setWidth 8))
  | .validate L => .cmd (cmdWord 0x4 (L.setWidth 8))
  | .bSyncAccept b => .byte b
  | .bSyncDiscard b => .byte b
  | .bPidReject b => .byte b
  | .bStore b => .byte b
  | .tBreak => .event
  | .deliver => .event
  | .dropShort => .event

/-- The context in which a table word of 8 bits is read: the first byte a POLL with the wildcard pops from
SearchingSync (log 9; a byte of the table has no meaning without one, R79). -/
def tableContext : Context := { poll := some ⟨Config.pidWildcard, .drain⟩, st := .searchingSync, len := 0 }

/-- The instruction read from a word of the opcode table: a row of 8 bits is a received byte, a row of 12 bits (16 in
whole bytes) a command word. The three rows without a word decode to nothing. -/
def decodeTableWord (nbits w : Nat) : Option Instr :=
  if nbits = 8 then
    if w < 256 then (decode tableContext (.byte (BitVec.ofNat 8 w))).toOption else none
  else if nbits = 12 ∨ nbits = 16 then
    if w < 4096 then (decode tableContext (.cmd (BitVec.ofNat 12 w))).toOption else none
  else none

end Sys2Proof
end

