-- ==== Sys2Proof/Machine/State.lean ====
section
/-! DEFINITION. The state of the machine: the six registers of `spec/10_state.md` section 1, the environment state the
block observes (section 8), the POLL in progress, the inputs that are to come and the outputs of the latest operation;
with the reasons a step can stop and the state after reset (R35, R190). -/

namespace Sys2Proof.Machine

/-- The result of POLL (`30_encoding.md` R75). -/
inductive FrameResult where
  | incomplete
  | complete (length : Len)
deriving DecidableEq, Repr

/-- The result of VALIDATE, with both checksum values (`41_checksum_validator.md` R142). -/
inductive Verdict where
  | matching (computed received : Byte)
  | mismatch (computed received : Byte)
deriving DecidableEq, Repr

/-- What an operation hands to the host (R75, R76). INIT hands nothing. -/
inductive Response where
  | frame (r : FrameResult)
  | snapshot (bytes : Vector Byte 11) (length : Len)
  | checksum (c : Byte)
  | verdict (v : Verdict)
deriving DecidableEq, Repr

/-- The labels of the event trace (`60_exceptions.md` R161). -/
inductive Label where
  | syncMismatch
  | pidMismatch
  | checksumMismatch
  | truncated
  /-- At forced completion, where more bytes are at hand (R161, R166; log 11). -/
  | overflow
  | breakSeen
deriving DecidableEq, Repr

/-- What the outside does next: the host presents a command word (R72), the Byte Source appends a byte or the clock
advances (R64, R85 `RX`, `TICK`), or the reset input is asserted (R190). -/
inductive Input where
  | cmd (w : Cmd)
  | rx (b : Byte)
  | tick (d : Time)
  | reset
deriving DecidableEq, Repr

/-- The block raises nothing (`60_exceptions.md` R160): there is no fault. -/
inductive Fault
deriving DecidableEq, Repr

/-- What the spec refuses ("a model has no step for it", `00_scope.md` R12). Every one of them is safe: the model stops
where the spec gives no meaning. -/
inductive Refusal where
  /-- An instruction without a meaning yet, rejected by name in `exec`; safe. -/
  | notModelled (mnemonic : String)
  /-- POLL while `bound == 0` (R101, R193, U1), raised by POLL; safe. -/
  | pollBeforeInit
  /-- A command word with `op` in `0x5` .. `0xF` (R80, U2), raised by the step's decoding; safe. -/
  | reservedOpcode (op : BitVec 4)
  /-- CHECKSUM or VALIDATE with `arg[7:4] != 0` (R81, U3, U4), raised by the step's decoding; safe. -/
  | reservedArgBits
  /-- CHECKSUM with `n > 11` (R141, U3), raised by CHECKSUM; safe. -/
  | checksumOperand
  /-- VALIDATE with `L < 2` or `L > 11` (R142, U4), raised by VALIDATE; safe. -/
  | validateOperand
  /-- A step of a POLL where it is not the one selected (R78: "cannot be issued alone"), raised by the seven steps; safe. -/
  | stepNotSelected
  /-- A register state the rules never produce (U9, D19), raised by POLL and by the step's decoding; safe. -/
  | registersOutsideRules
deriving DecidableEq, Repr

/-- The machine. Plain data; no field is a function. -/
structure State where
  /-- The parameters of the instance, written by nothing (R7, R26). -/
  cfg : Params
  /-- The frame buffer `buf[0]` .. `buf[10]` (R20). -/
  buf : Vector Byte 11
  /-- Number of bytes of the frame in progress (R21). -/
  len : Len
  /-- The decoder state (R22). -/
  st : DecoderState
  /-- The clock value when the last byte was stored, `t_last` (R23). -/
  tLast : Time
  /-- The length of the most recently completed frame, `last_len` (R24). -/
  lastLen : Len
  /-- INIT has been performed (R25). -/
  bound : Bool
  /-- The Byte Source's queue, oldest byte first (R32). -/
  rxq : List Byte
  /-- The microsecond clock (R33). -/
  now : Time
  /-- The model's own: how far the clock advances before each of the coming `Now()` samples (R104); zero after the end
  of the list (log 4). -/
  lapses : List Time
  /-- The model's own: what the outside does next, oldest first (log 6). -/
  inbox : List Input
  /-- The POLL in progress, absent between operations (R30, R61; log 5). -/
  poll : Option Poll
  /-- The model's own: the response of the latest operation (R29; log 7). -/
  resp : Option Response
  /-- The model's own: the labels the latest operation emitted (R161; log 7). -/
  trace : List Label
deriving DecidableEq, Repr

/-- What the selection of an operation reads of a state (R78). -/
def State.context (s : State) : Context := { poll := s.poll, st := s.st, len := s.len }

/-- The machine right after reset (R35, R190; log 2, log 3). -/
def State.reset : State where
  cfg := Params.default
  buf := Vector.replicate 11 0x00
  len := 0
  st := .searchingSync
  tLast := 0
  lastLen := 0
  bound := false
  rxq := []
  now := 0
  lapses := []
  inbox := []
  poll := none
  resp := none
  trace := []

/-- An instance with another threshold, right after reset; a threshold of 0 is refused at instantiation (R7, U10). -/
def State.instantiate (p : Params) : Option State :=
  if p.breakThreshold = 0 then none else some { State.reset with cfg := p }

end Sys2Proof.Machine
end

