-- ==== Sys2Proof/Machine/Flags.lean ====
section
/-! DEFINITION. The two results that play the part of flags (`spec/10_state.md` R29) and the arithmetic behind them:
the end-around-carry sum and its complement (`spec/41_checksum_validator.md` R140, R148), and the match of VALIDATE
(R142). The block has no flags register. -/

namespace Sys2Proof.Machine

/-- One addition into the 9-bit accumulator, then `0xFF` taken away where the sum is above `0xFF` (R140 step 2;
exactly `0xFF` stays). -/
def sumStep (acc : Acc) (b : Byte) : Acc :=
  if 0xFF < acc + b.setWidth 9 then acc + b.setWidth 9 - 0xFF else acc + b.setWidth 9

/-- The bytes that are summed: `B[1]` .. `B[n-1]`, none where `n <= 1` (R140). R140 gives the function for
`n <= size(B)` only; for a larger `n`, which no operation reaches, these are the bytes that exist (DESIGN CHOICE,
log 12). -/
def summedBytes (B : List Byte) (n : Nat) : List Byte := (B.take n).drop 1

/-- The final accumulator (R140, R34). -/
def checksumAcc (B : List Byte) (n : Nat) : Acc := (summedBytes B n).foldl sumStep 0

/-- `checksum(B, n)`: the complement of the accumulator at 8 bits (R140 step 3). -/
def checksum (B : List Byte) (n : Nat) : Byte := (~~~(checksumAcc B n)).setWidth 8

/-- The comparison of VALIDATE (R142). -/
def verdictOf (computed received : Byte) : Verdict :=
  if computed = received then .matching computed received else .mismatch computed received

/-- The match flag of VALIDATE (R29, R76). -/
def Verdict.isMatch : Verdict → Bool
  | .matching _ _ => true
  | .mismatch _ _ => false

/-- `elapsed = trunc_64(t_end - t_last)`, subtraction modulo 2^64 (R110 corner b, the spec's decision D9). -/
def elapsed (tEnd tLast : Time) : Time := tEnd - tLast

end Sys2Proof.Machine
end

