-- ==== Sys2Proof/Machine/Operands.lean ====
section
/-! DEFINITION. Operand forms and response words: the ranges of the operands `n` and `L` (`spec/30_encoding.md` R74),
the PID filter's reading of `expectedPID` (R73), and the layouts of the responses (R75, R76). -/

namespace Sys2Proof.Machine

/-- The operand `n` of CHECKSUM is 0 .. 11 (R74, R141). -/
def checksumOperandOk (n : Len) : Bool := decide (n.toNat ≤ 11)

/-- The operand `L` of VALIDATE is 2 .. 11 (R74, R142). -/
def validateOperandOk (L : Len) : Bool := decide (2 ≤ L.toNat ∧ L.toNat ≤ 11)

/-- The PID filter rejects the byte at position 1: the operand is not the wildcard and the byte differs from it
(R73, R107). -/
def pidFilterRejects (pid b : Byte) : Bool := decide (pid ≠ Config.pidWildcard ∧ b ≠ pid)

/-- The code of the decoder state in two bits (R82, the spec's decision D5). -/
def stCode : DecoderState → BitVec 2
  | .searchingSync => 0
  | .accumulating => 1
  | .frameReady => 2

/-- The FrameResult word, 4 bits: 0 is Incomplete, else the length (R75). -/
def FrameResult.word : FrameResult → BitVec 4
  | .incomplete => 0
  | .complete n => n

/-- The LASTFRAME word, 92 bits: `last_len` in bits 91..88 and `buf[i]` in bits `8i+7..8i` (R76). -/
def snapshotWord (bytes : Vector Byte 11) (length : Len) : BitVec 92 :=
  length ++ bytes[10] ++ bytes[9] ++ bytes[8] ++ bytes[7] ++ bytes[6] ++ bytes[5] ++ bytes[4] ++ bytes[3] ++ bytes[2]
    ++ bytes[1] ++ bytes[0]

/-- The VALIDATE word, 17 bits: the match flag in bit 16, computed in 15..8, received in 7..0 (R76). -/
def Verdict.word : Verdict → BitVec 17
  | .matching c r => (1 : BitVec 1) ++ c ++ r
  | .mismatch c r => (0 : BitVec 1) ++ c ++ r

/-- The width in bits and the value of a response on the response port (R75, R76). -/
def Response.port : Response → Nat × Nat
  | .frame r => (4, r.word.toNat)
  | .snapshot bytes length => (92, (snapshotWord bytes length).toNat)
  | .checksum c => (8, c.toNat)
  | .verdict v => (17, v.word.toNat)

end Sys2Proof.Machine
end

