-- ==== Sys2Proof/Machine/Ops.lean ====
section
/-! DEFINITION. The named operations every meaning is written over: the primitives of `spec/00_scope.md` R12 (buffer,
Byte Source, clock, trace), the abort R168, the effects of the seven steps of a POLL (`spec/40_frame_decoder.md` R105 to
R112), the drain loop R102 and the three phases R101, and what the environment and the reset input do. -/

namespace Sys2Proof.Machine.State

/-- `buf[i]`. An index above 10 does not exist (R51); no operation reads one, and the value given there is used by
nothing (log 10). -/
def readBuf (s : State) (i : Nat) : Byte := s.buf[i]?.getD 0x00

/-- `buf[i] <- b`. No operation writes an index above 10 (R118); such a write would be lost (log 10). -/
def writeBuf (s : State) (i : Nat) (b : Byte) : State := { s with buf := s.buf.setIfInBounds i b }

/-- `RxAvail()`: true exactly when `rxq` is not empty (R54). -/
def rxAvail (s : State) : Bool := !s.rxq.isEmpty

/-- `RxPop()` removes the oldest byte (R55); the byte itself is the head of `rxq`. -/
def rxPop (s : State) : State := { s with rxq := s.rxq.tail }

/-- The clock moves to the coming sample (R104). -/
def clockTick (s : State) : State := { s with now := s.now + s.lapses.headD 0, lapses := s.lapses.tail }

/-- `t_last <- Now()` (R56, R106, R108). -/
def stamp (s : State) : State := { s.clockTick with tLast := s.clockTick.now }

/-- `emit L` (R12). -/
def emit (s : State) (l : Label) : State := { s with trace := s.trace ++ [l] }

/-- The start of a host operation: nothing is handed out yet and its trace is empty (R29, R161; log 7). -/
def beginOp (s : State) : State := { s with resp := none, trace := [] }

/-- The abort, `len <- 0` and `st <- SearchingSync`; nothing is saved and nothing else changes (R168). What stands in
for the return from it is `syncAccept` (R169). -/
def toSearching (s : State) : State := { s with len := 0, st := .searchingSync }

/-- The registers at their reset values with `bound` as given (R35, R100, R190, R191). -/
def clearRegisters (s : State) (bound : Bool) : State :=
  { s with buf := Vector.replicate 11 0x00, len := 0, st := .searchingSync, tLast := 0, lastLen := 0, bound := bound }

/-- B_SYNC_DISCARD: the byte is lost (R105). -/
def syncDiscard (s : State) : State := s.emit .syncMismatch

/-- B_SYNC_ACCEPT (R106). -/
def syncAccept (s : State) (b : Byte) : State := stamp { s.writeBuf 0 b with len := 1, st := .accumulating }

/-- B_PID_REJECT: the byte is lost, `0x55` included (R107). -/
def pidReject (s : State) : State := s.toSearching.emit .pidMismatch

/-- Forced completion (R109). Where more bytes than the buffer holds are at hand, that is the condition Overflow, and its
label is emitted (R161, R166; DEDUCED, log 11); the surplus stays in `rxq`. -/
def forceCompletion (s : State) : State :=
  { s with st := .frameReady, trace := if s.rxAvail = true then s.trace ++ [.overflow] else s.trace }

/-- B_STORE, with forced completion at the eleventh byte (R108, R109). -/
def storeByte (s : State) (b : Byte) : State :=
  if s.len + 1 = 11 then (stamp { s.writeBuf s.len.toNat b with len := s.len + 1 }).forceCompletion
  else stamp { s.writeBuf s.len.toNat b with len := s.len + 1 }

/-- `ByteEvent(b, pid)` (R103, R167). -/
def byteEvent (pid : Byte) (s : State) (b : Byte) : State :=
  if s.st = .searchingSync then
    if b = Config.syncByte then s.syncAccept b else s.syncDiscard
  else if s.len = 1 ∧ pidFilterRejects pid b = true then s.pidReject
  else s.storeByte b

/-- Phase 1 over the finite list `avail` of the bytes at hand (R101, R102): oldest first, until none is left or the
frame is ready. -/
def drain (pid : Byte) : List Byte → State → State
  | [], s => s
  | b :: avail, s => if s.st = .frameReady then s else drain pid avail (byteEvent pid s.rxPop b)

/-- The POLL is past its break check (R101). -/
def settlePhase (s : State) : State := { s with poll := s.poll.map fun p => { p with phase := .settle } }

/-- The silence has lasted long enough, measured at the state's clock (R110). -/
def silent (s : State) : Bool := decide (s.st = .accumulating ∧ s.cfg.breakThreshold ≤ elapsed s.now s.tLast)

/-- T_BREAK (R110): one clock sample, then the comparison. -/
def breakCheck (s : State) : State :=
  if s.clockTick.silent = true then ({ s.clockTick.settlePhase with st := .frameReady } : State).emit .breakSeen
  else s.clockTick.settlePhase

/-- `return` from a POLL with its FrameResult (R101, R75). -/
def closePoll (s : State) (r : FrameResult) : State := { s with poll := none, resp := some (.frame r) }

/-- DELIVER (R111). -/
def deliver (s : State) : State :=
  ({ s.toSearching with lastLen := s.len } : State).closePoll (.complete s.len)

/-- DROP_SHORT (R112). -/
def dropShort (s : State) : State := (s.toSearching.emit .truncated).closePoll .incomplete

/-- Phase 3 (R101). -/
def settle (s : State) : State :=
  if s.st = .frameReady then
    if Config.minFrameBytes ≤ s.len.toNat then s.deliver else s.dropShort
  else s.closePoll .incomplete

/-- The start of a POLL with its operand (R101, R30). -/
def openPoll (s : State) (pid : Byte) : State := { s.beginOp with poll := some ⟨pid, .drain⟩ }

/-- The three phases of a POLL, always in this order (R101). -/
def pollPhases (s : State) (pid : Byte) : State := ((s.openPoll pid).drain pid s.rxq).breakCheck.settle

/-- The registers are in a state the rules speak of: `len <= 11`, and `1 <= len <= 10` while Accumulating (R118; the
others are U9). -/
def inRules (s : State) : Bool :=
  decide (s.len.toNat ≤ 11 ∧ (s.st = .accumulating → 1 ≤ s.len.toNat ∧ s.len.toNat ≤ 10))

/-- Phase 1 of the POLL in progress is over: the frame is ready or no byte is at hand (R102). -/
def drainEnded (s : State) : Bool := decide (s.st = .frameReady) || !s.rxAvail

/-- `i` is the step of a POLL that the byte or the state selects (R78, R79). -/
def selects (s : State) (i : Instr) : Bool := decide ((decode s.context (encode i)).toOption = some i)

/-- The Byte Source appends a byte (R32, R64, R85 `RX`). -/
def receive (s : State) (b : Byte) : State := { s with rxq := s.rxq ++ [b] }

/-- The clock advances, modulo 2^64 (R33, R85 `TICK`, R211). -/
def advance (s : State) (d : Time) : State := { s with now := s.now + d }

/-- The reset input (R190): every register at its reset value; `rxq` and the clock are not touched. No operation is in
progress afterwards and nothing is on the response port. -/
def resetBlock (s : State) : State := { s.beginOp.clearRegisters false with poll := none }

end Sys2Proof.Machine.State
end

