-- ==== Sys2Proof/Machine/ByteEvents.lean ====
section
/-! DEFINITION. The meanings of the four byte events (`spec/40_frame_decoder.md` section 3): each runs where R78 and R79
select it inside a POLL, after the drain loop has popped the byte, and cannot be issued anywhere else (R78). -/

namespace Sys2Proof.Machine

/-- B_SYNC_DISCARD (R105). -/
def execBSyncDiscard (b : Byte) (s : State) : Host.Outcome State Fault Refusal :=
  if s.selects (.bSyncDiscard b) = true then .next s.syncDiscard else .refused .stepNotSelected

/-- B_SYNC_ACCEPT (R106). -/
def execBSyncAccept (b : Byte) (s : State) : Host.Outcome State Fault Refusal :=
  if s.selects (.bSyncAccept b) = true then .next (s.syncAccept b) else .refused .stepNotSelected

/-- B_PID_REJECT (R107). -/
def execBPidReject (b : Byte) (s : State) : Host.Outcome State Fault Refusal :=
  if s.selects (.bPidReject b) = true then .next s.pidReject else .refused .stepNotSelected

/-- B_STORE (R108, R109). -/
def execBStore (b : Byte) (s : State) : Host.Outcome State Fault Refusal :=
  if s.selects (.bStore b) = true then .next (s.storeByte b) else .refused .stepNotSelected

end Sys2Proof.Machine
end

