-- ==== Sys2Proof/Machine/Completion.lean ====
section
/-! DEFINITION. The meanings of the break check and of the two completions (`spec/40_frame_decoder.md` sections 4 and
5), each where R78 selects it inside a POLL. -/

namespace Sys2Proof.Machine

/-- T_BREAK (R110), once per POLL and after the drain. -/
def execTBreak (s : State) : Host.Outcome State Fault Refusal :=
  if s.selects .tBreak = true ∧ s.drainEnded = true then .next s.breakCheck else .refused .stepNotSelected

/-- DELIVER (R111). -/
def execDeliver (s : State) : Host.Outcome State Fault Refusal :=
  if s.selects .deliver = true then .next s.deliver else .refused .stepNotSelected

/-- DROP_SHORT (R112). -/
def execDropShort (s : State) : Host.Outcome State Fault Refusal :=
  if s.selects .dropShort = true then .next s.dropShort else .refused .stepNotSelected

end Sys2Proof.Machine
end

