-- ==== Sys2Proof/Machine/FrameDecoder.lean ====
section
/-! DEFINITION. The meanings of the decoder's host operations INIT, POLL and LASTFRAME (`spec/40_frame_decoder.md`
sections 1, 2 and 6). -/

namespace Sys2Proof.Machine

/-- INIT (R100): the reset values and `bound <- 1`; `rxq` and the clock are not touched, nothing is returned. -/
def execInit (s : State) : Host.Outcome State Fault Refusal := .next (s.beginOp.clearRegisters true)

/-- POLL (R101, R120): refused before INIT (U1) and from register states the rules never produce (U9); else the three
phases in one operation (R61). -/
def execPoll (pid : Byte) (s : State) : Host.Outcome State Fault Refusal :=
  if s.bound = false then .refused .pollBeforeInit
  else if s.inRules = false then .refused .registersOutsideRules
  else .next (s.pollPhases pid)

/-- LASTFRAME (R113): the live registers, in any state and before INIT too (R193). -/
def execLastFrame (s : State) : Host.Outcome State Fault Refusal :=
  .next { s.beginOp with resp := some (.snapshot s.buf s.lastLen) }

end Sys2Proof.Machine
end

