-- ==== Sys2Proof/Machine/Validator.lean ====
section
/-! DEFINITION. The meanings of the validator's host operations CHECKSUM and VALIDATE
(`spec/41_checksum_validator.md` sections 2 and 3). -/

namespace Sys2Proof.Machine

/-- CHECKSUM (R141): the function R140 over the frame buffer. -/
def execChecksum (n : Len) (s : State) : Host.Outcome State Fault Refusal :=
  if checksumOperandOk n = true then
    .next { s.beginOp with resp := some (.checksum (checksum s.buf.toList n.toNat)) }
  else .refused .checksumOperand

/-- The two checksum values VALIDATE compares: computed over `buf[1]` .. `buf[L-2]`, received in `buf[L-1]` (R142). -/
def validation (L : Len) (s : State) : Verdict :=
  verdictOf (checksum s.buf.toList (L.toNat - 1)) (s.readBuf (L.toNat - 1))

/-- VALIDATE (R142); a mismatch is a return value and a label, and changes no register (R164). -/
def execValidate (L : Len) (s : State) : Host.Outcome State Fault Refusal :=
  if validateOperandOk L = true then
    let v := validation L s
    let t : State := { s.beginOp with resp := some (.verdict v) }
    .next (if v.isMatch = true then t else t.emit .checksumMismatch)
  else .refused .validateOperand

end Sys2Proof.Machine
end

