-- ==== Sys2Proof/Machine/Dispatch.lean ====
section
/-! DEFINITION. One arm for each constructor of `Instr`. -/

namespace Sys2Proof.Machine

def exec (i : Instr) (s : State) : Host.Outcome State Fault Refusal :=
  match i with
  | .init => Sys2Proof.Machine.execInit s
  | .poll pid => Sys2Proof.Machine.execPoll pid s
  | .lastFrame => Sys2Proof.Machine.execLastFrame s
  | .checksum n => Sys2Proof.Machine.execChecksum n s
  | .validate L => Sys2Proof.Machine.execValidate L s
  | .bSyncAccept b => Sys2Proof.Machine.execBSyncAccept b s
  | .bSyncDiscard b => Sys2Proof.Machine.execBSyncDiscard b s
  | .bPidReject b => Sys2Proof.Machine.execBPidReject b s
  | .bStore b => Sys2Proof.Machine.execBStore b s
  | .tBreak => Sys2Proof.Machine.execTBreak s
  | .deliver => Sys2Proof.Machine.execDeliver s
  | .dropShort => Sys2Proof.Machine.execDropShort s

end Sys2Proof.Machine
end

