-- ==== Sys2Proof/Machine/Fetch.lean ====
section
/-! DEFINITION. What the machine does next: the next step of a POLL in progress (`spec/40_frame_decoder.md` R101), else
the next input from outside, a command word among them (`spec/30_encoding.md` R72, R85). -/

namespace Sys2Proof.Machine

/-- What a step is about to do: run an instruction in a state, go on to a state without one, or stop. -/
inductive Fetched where
  | run (i : Instr) (s : State)
  | quiet (s : State)
  | stop (r : Refusal)
deriving DecidableEq, Repr

/-- The refusal of a word, a byte or an event that decodes to nothing. -/
def refusalOf : DecodeError → Refusal
  | .reservedOpcode op => .reservedOpcode op
  | .reservedArgBits => .reservedArgBits
  | .noPollStep => .stepNotSelected
  | .outsideRules => .registersOutsideRules

/-- An instruction decoded in the context of `s`, to be run in `t`. -/
def fetchedOf (s t : State) (e : Encoding) : Fetched :=
  match decode s.context e with
  | .ok i => .run i t
  | .error r => .stop (refusalOf r)

/-- The next step of a POLL in progress: a byte of the drain loop (R102), the break check, the completion, or the plain
return of Incomplete (R101). -/
def fetchPollStep (p : Poll) (s : State) : Fetched :=
  match p.phase with
  | .drain =>
    if s.st = .frameReady then fetchedOf s s .event
    else match s.rxq with
      | b :: _ => fetchedOf s s.rxPop (.byte b)
      | [] => fetchedOf s s .event
  | .settle => if s.st = .frameReady then fetchedOf s s .event else .quiet (s.closePoll .incomplete)

/-- The next input (R61: taken only between operations). With none at hand the block does nothing (R178, R190). -/
def fetchInput (s : State) : Fetched :=
  match s.inbox with
  | [] => .quiet s
  | .cmd w :: rest => fetchedOf s { s with inbox := rest } (.cmd w)
  | .rx b :: rest => .quiet ({ s with inbox := rest }.receive b)
  | .tick d :: rest => .quiet ({ s with inbox := rest }.advance d)
  | .reset :: rest => .quiet { s with inbox := rest }.resetBlock

/-- What the machine does next. -/
def fetch (s : State) : Fetched :=
  match s.poll with
  | some p => fetchPollStep p s
  | none => fetchInput s

/-- A command word is the next input and no operation is in progress. -/
def placeCommand (s : State) (w : Cmd) : State := { s with poll := none, inbox := .cmd w :: s.inbox }

/-- A received byte is the next one a POLL with the wildcard pops, in SearchingSync (log 9). -/
def placeByte (s : State) (b : Byte) : State :=
  { s with poll := some ⟨Config.pidWildcard, .drain⟩, st := .searchingSync, rxq := b :: s.rxq }

end Sys2Proof.Machine
end

