-- ==== Sys2Proof/Machine/Step.lean ====
section
/-! DEFINITION. One step: what `fetch` finds next is done. -/

namespace Sys2Proof.Machine

/-- What `fetch` found is done: an instruction by `exec`; an input of the environment, or the plain return of a POLL,
needs none. -/
def perform : Fetched → Host.Outcome State Fault Refusal
  | .run i t => exec i t
  | .quiet t => .next t
  | .stop r => .refused r

/-- One step of the machine. -/
def step (s : State) : Host.Outcome State Fault Refusal := perform (fetch s)

/-- `s` with a word of the opcode table placed so that the very next step runs it: a word of 8 bits as the byte a POLL
pops next, another as the next command word (log 6, log 9). -/
def State.withFetchWord (s : State) (nbits w : Nat) : State :=
  if nbits = 8 then placeByte s (BitVec.ofNat 8 w) else placeCommand s (BitVec.ofNat 12 w)

end Sys2Proof.Machine
end

