-- ==== Sys2Proof/Machine/Pseudo.lean ====
section
/-! DEFINITION. The pseudo-operations of `spec/30_encoding.md` R84, each as its expansion. They have no encoding of
their own. -/

namespace Sys2Proof.Machine

/-- `POLL` without an operand is `POLL 0x00` (R84, R73). -/
def pollAny : Instr := .poll 0x00

/-- `POLL_LIGHTS` is `POLL 0xCF` (R84, R8). -/
def pollLights : Instr := .poll 0xCF

/-- `TICK_CONSUMER pid`, one tick of the host's control loop: `r <- POLL pid`; if `r != 0` then `VALIDATE r` (R84). -/
def tickConsumer (pid : Byte) (s : State) : Host.Outcome State Fault Refusal :=
  match exec (.poll pid) s with
  | .next t =>
    match t.resp with
    | some (.frame (.complete n)) => exec (.validate n) t
    | _ => .next t
  | .fault r => .fault r
  | .refused r => .refused r

end Sys2Proof.Machine
end

