-- ==== Sys2Proof/Safety.lean ====
section
/-! DEFINITION. What counts as a sound state, in the terms claims use: the invariants of `spec/10_state.md` R27 and R28,
what is in force while a POLL is in progress, the column "selected by" of `spec/30_encoding.md` R78, and the readings of
the clock R104. -/

namespace Sys2Proof

/-- When an operation of the table is selected (R78). The host's operations are selected by their word alone; B_STORE
has the precondition `1 <= len <= 10` (R108). -/
def Selects (ctx : Context) : Instr → Prop
  | .init | .poll _ | .lastFrame | .checksum _ | .validate _ => True
  | .bSyncDiscard b => (∃ pid, ctx.poll = some ⟨pid, .drain⟩) ∧ ctx.st = .searchingSync ∧ b ≠ 0x55
  | .bSyncAccept b => (∃ pid, ctx.poll = some ⟨pid, .drain⟩) ∧ ctx.st = .searchingSync ∧ b = 0x55
  | .bPidReject b => ∃ pid, ctx.poll = some ⟨pid, .drain⟩ ∧ ctx.st = .accumulating ∧ ctx.len = 1 ∧ pid ≠ 0x00 ∧ b ≠ pid
  | .bStore b => ∃ pid, ctx.poll = some ⟨pid, .drain⟩ ∧ ctx.st = .accumulating ∧
      (1 ≤ ctx.len.toNat ∧ ctx.len.toNat ≤ 10) ∧ ¬(ctx.len = 1 ∧ pid ≠ 0x00 ∧ b ≠ pid)
  | .tBreak => ∃ pid, ctx.poll = some ⟨pid, .drain⟩
  | .deliver => (∃ pid, ctx.poll = some ⟨pid, .settle⟩) ∧ ctx.st = .frameReady ∧
      2 ≤ ctx.len.toNat ∧ ctx.len.toNat ≤ 11
  | .dropShort => (∃ pid, ctx.poll = some ⟨pid, .settle⟩) ∧ ctx.st = .frameReady ∧ ctx.len.toNat < 2

/-- The five rows of R79 in their order, each a side condition, a mask, a match and the operation. -/
def rowsR79 (pid : Byte) (st : DecoderState) (len : Len) (b : Byte) : List (Bool × Byte × Byte × Instr) :=
  [(decide (st = .searchingSync), 0xFF, 0x55, .bSyncAccept b),
   (decide (st = .searchingSync), 0x00, 0x00, .bSyncDiscard b),
   (decide (st = .accumulating ∧ len = 1 ∧ pid ≠ 0), 0xFF, pid, .bStore b),
   (decide (st = .accumulating ∧ len = 1 ∧ pid ≠ 0), 0x00, 0x00, .bPidReject b),
   (decide (st = .accumulating), 0x00, 0x00, .bStore b)]

namespace Machine

/-- The invariants between operations, R28 (a) to (e). -/
abbrev BetweenOperations (s : State) : Prop :=
  (s.st = .searchingSync ↔ s.len = 0) ∧
  (s.st = .accumulating ↔ 1 ≤ s.len.toNat ∧ s.len.toNat ≤ 10) ∧
  s.st ≠ .frameReady ∧
  (1 ≤ s.len.toNat → s.readBuf 0 = 0x55) ∧
  (s.lastLen = 0 ∨ 2 ≤ s.lastLen.toNat ∧ s.lastLen.toNat ≤ 11)

/-- What every step keeps, inside a POLL too: R28 as far as it holds there, the range of the threshold (R7), and that a
block not bound has its reset values (R25, R35) and no POLL in progress (R193). -/
structure Inv (s : State) : Prop where
  legal : s.cfg.Legal
  searching : s.st = .searchingSync → s.len = 0
  accumulating : s.st = .accumulating → 1 ≤ s.len.toNat ∧ s.len.toNat ≤ 10
  ready : s.st = .frameReady → 1 ≤ s.len.toNat ∧ s.len.toNat ≤ 11
  readyInPoll : s.st = .frameReady → s.poll ≠ none
  sync : 1 ≤ s.len.toNat → s.readBuf 0 = 0x55
  lastLen : s.lastLen = 0 ∨ 2 ≤ s.lastLen.toNat ∧ s.lastLen.toNat ≤ 11
  unbound : s.bound = false → s.buf = Vector.replicate 11 0x00 ∧ s.len = 0 ∧ s.tLast = 0 ∧ s.lastLen = 0
  pollBound : s.poll ≠ none → s.bound = true

/-- The six registers of the block are the same in both states. -/
abbrev SameRegisters (s t : State) : Prop :=
  t.buf = s.buf ∧ t.len = s.len ∧ t.st = s.st ∧ t.tLast = s.tLast ∧ t.lastLen = s.lastLen ∧ t.bound = s.bound

/-- The parameters and what belongs to the environment are the same in both states. -/
abbrev SameEnvironment (s t : State) : Prop :=
  t.cfg = s.cfg ∧ t.rxq = s.rxq ∧ t.now = s.now ∧ t.lapses = s.lapses ∧ t.inbox = s.inbox

/-- The registers are in a state in which a POLL runs: `len` at most 11, and 1 to 10 in Accumulating (R21, R118, U9;
log 8). -/
abbrev RegistersInRules (s : State) : Prop :=
  s.len.toNat ≤ 11 ∧ (s.st = .accumulating → 1 ≤ s.len.toNat ∧ s.len.toNat ≤ 10)

/-- The command words a host may issue (R72, R74, R80, R81, R196), POLL only when INIT has been performed (R193). -/
def LegalCommand (bound : Bool) (w : Cmd) : Prop :=
  match (cmdOp w).toNat with
  | 0 | 2 => True
  | 1 => bound = true
  | 3 => (cmdArg w).toNat ≤ 11
  | 4 => 2 ≤ (cmdArg w).toNat ∧ (cmdArg w).toNat ≤ 11
  | _ => False

/-- Between two operations the Byte Source appends bytes and the clock advances (R64). -/
def hear (bytes : List Byte) (d : Time) (s : State) : State := { s with rxq := s.rxq ++ bytes, now := s.now + d }

/-- A host that polls with one operand: before each POLL the bytes of a burst have come and the clock has advanced. The
responses of the POLLs in order; absent where a POLL gives no next state. -/
def pollBursts (pid : Byte) : List (List Byte × Time) → State → Option (State × List (Option Response))
  | [], s => some (s, [])
  | (bytes, d) :: more, s =>
    match exec (.poll pid) (hear bytes d s) with
    | .next t => (pollBursts pid more t).map fun r => (r.1, t.resp :: r.2)
    | _ => none

/-- The clock value after `k` more `Now()` samples (R104). -/
def clockAfter (s : State) (k : Nat) : Time := s.now + (s.lapses.take k).sum

/-- What one row of the transition table says of a received byte: the next `st` and `len`, the index the byte is stored
at, and the label of the condition met. -/
structure ByteRow where
  st : DecoderState
  len : Nat
  index : Option Nat
  label : Option Label
deriving DecidableEq, Repr

/-- The rows of the transition table R114 whose event is a byte, with the labels of R161; `rest` is what is at hand
after the byte, on which the label Overflow depends (log 11). -/
def byteRow (pid : Byte) (st : DecoderState) (len : Nat) (b : Byte) (rest : List Byte) : ByteRow :=
  match st with
  | .searchingSync => if b = 0x55 then ⟨.accumulating, 1, some 0, none⟩ else ⟨.searchingSync, 0, none, some .syncMismatch⟩
  | .accumulating =>
    if len = 1 ∧ pid ≠ 0x00 ∧ b ≠ pid then ⟨.searchingSync, 0, none, some .pidMismatch⟩
    else if len ≤ 9 then ⟨.accumulating, len + 1, some len, none⟩
    else ⟨.frameReady, 11, some 10, if rest = [] then none else some .overflow⟩
  | .frameReady => ⟨.frameReady, len, none, none⟩

/-- What the bytes at hand lead to: the `st` and `len` at the end of phase 1, the pairs of index and byte stored, the
labels, and the bytes left. -/
structure Drained where
  st : DecoderState
  len : Nat
  stored : List (Nat × Byte)
  labels : List Label
  left : List Byte
deriving DecidableEq, Repr

/-- Phase 1 by the transition table alone, on `st` and `len` as numbers (R102, R114). -/
def drainByTable (pid : Byte) (st : DecoderState) (len : Nat) : List Byte → Drained
  | [] => ⟨st, len, [], [], []⟩
  | b :: rest =>
    if st = .frameReady then ⟨st, len, [], [], b :: rest⟩
    else
      let row := byteRow pid st len b rest
      let after := drainByTable pid row.st row.len rest
      { after with
        stored := (row.index.toList.map fun i => (i, b)) ++ after.stored
        labels := row.label.toList ++ after.labels }

/-- The buffer after the pairs of index and byte have been stored in order. -/
def storeAll (buf : Vector Byte 11) : List (Nat × Byte) → Vector Byte 11
  | [] => buf
  | (i, b) :: rest => storeAll (buf.setIfInBounds i b) rest

/-- `t_last` after the bytes of phase 1: the sample of the last byte stored, or as it was (R104, R106, R108). -/
def tLastByTable (s : State) (d : Drained) : Time :=
  if d.stored.length = 0 then s.tLast else clockAfter s d.stored.length

/-- The break fires: a frame is in progress after phase 1 and the silence up to the last sample has reached the threshold
(R110). -/
def firesByTable (s : State) (d : Drained) : Bool :=
  decide (d.st = .accumulating ∧
    s.cfg.breakThreshold.toNat ≤ (clockAfter s (d.stored.length + 1) - tLastByTable s d).toNat)

/-- A frame is ready for phase 3 (R101). -/
def readyByTable (s : State) (d : Drained) : Bool := decide (d.st = .frameReady) || firesByTable s d

/-- The end of a POLL from what phase 1 led to: one clock sample for each stored byte and one for the break check (R104),
the break (R110), and the completion (R111, R112). -/
def finishByTable (s : State) (d : Drained) : State :=
  { s with
    buf := storeAll s.buf d.stored
    len := if readyByTable s d = true then 0 else BitVec.ofNat 4 d.len
    st := if readyByTable s d = true then .searchingSync else d.st
    tLast := tLastByTable s d
    lastLen := if readyByTable s d = true ∧ 2 ≤ d.len then BitVec.ofNat 4 d.len else s.lastLen
    rxq := d.left
    now := clockAfter s (d.stored.length + 1)
    lapses := s.lapses.drop (d.stored.length + 1)
    poll := none
    resp := some (.frame (if readyByTable s d = true ∧ 2 ≤ d.len then .complete (BitVec.ofNat 4 d.len) else .incomplete))
    trace := d.labels ++ (if firesByTable s d = true then [.breakSeen] else []) ++
      (if readyByTable s d = true ∧ d.len < 2 then [.truncated] else []) }

/-- The whole of a POLL by the transition table R114, written as one state. -/
def pollByTable (pid : Byte) (s : State) : State :=
  finishByTable s (drainByTable pid s.st s.len.toNat s.rxq)

end Machine
end Sys2Proof
end

