-- ==== Sys2Proof/Laws/PerInstr.lean ====
section
/-! SUPPORT. For each instruction: decoding its encoding gives it back, in every context that selects it. -/

namespace Sys2Proof.Laws.EncodeDecode

/-- Decoding the encoding of `i` gives `i`, in every context that selects `i` (R72, R78, R79). -/
def Statement (i : Instr) : Prop :=
  ∀ ctx, WellFormed i → Selects ctx i → decode ctx (encode i) = .ok i

theorem cmdWord_toNat (op : BitVec 4) (arg : Byte) : (cmdWord op arg).toNat = op.toNat * 256 + arg.toNat := by
  have h : (cmdWord op arg).toNat = op.toNat <<< 8 ||| arg.toNat := BitVec.toNat_append op arg
  rw [h, Nat.shiftLeft_eq, Nat.mul_comm, ← Nat.two_pow_add_eq_or_of_lt arg.isLt]

theorem cmdOp_cmdWord (op : BitVec 4) (arg : Byte) : cmdOp (cmdWord op arg) = op := by
  apply BitVec.eq_of_toNat_eq
  simp only [cmdOp, BitVec.extractLsb'_toNat, cmdWord_toNat, Nat.shiftRight_eq_div_pow]
  omega

theorem cmdArg_cmdWord (op : BitVec 4) (arg : Byte) : cmdArg (cmdWord op arg) = arg := by
  apply BitVec.eq_of_toNat_eq
  simp only [cmdArg, BitVec.extractLsb'_toNat, cmdWord_toNat, Nat.shiftRight_eq_div_pow]
  omega

theorem nibbleOperand_cmdWord (op : BitVec 4) (n : Len) (mk : Len → Instr) :
    nibbleOperand (cmdWord op (n.setWidth 8)) mk = .ok (mk n) := by
  have high : (cmdWord op (n.setWidth 8)).extractLsb' 4 4 = 0 := by
    apply BitVec.eq_of_toNat_eq
    simp only [BitVec.extractLsb'_toNat, cmdWord_toNat, Nat.shiftRight_eq_div_pow, BitVec.toNat_setWidth]
    show (op.toNat * 256 + n.toNat % 256) / 16 % 16 = 0
    omega
  have low : (cmdWord op (n.setWidth 8)).extractLsb' 0 4 = n := by
    apply BitVec.eq_of_toNat_eq
    simp only [BitVec.extractLsb'_toNat, cmdWord_toNat, Nat.shiftRight_eq_div_pow, BitVec.toNat_setWidth]
    omega
  rw [nibbleOperand, if_pos high, low]

theorem init : Statement .init := by
  intro ctx _ _; simp [decode, encode, decodeCmd, cmdOp_cmdWord]

theorem poll (pid : Byte) : Statement (.poll pid) := by
  intro ctx _ _; simp [decode, encode, decodeCmd, cmdOp_cmdWord, cmdArg_cmdWord]

theorem lastFrame : Statement .lastFrame := by
  intro ctx _ _; simp [decode, encode, decodeCmd, cmdOp_cmdWord]

theorem checksum (n : Len) : Statement (.checksum n) := by
  intro ctx _ _; simp [decode, encode, decodeCmd, cmdOp_cmdWord, nibbleOperand_cmdWord]

theorem validate (L : Len) : Statement (.validate L) := by
  intro ctx _ _; simp [decode, encode, decodeCmd, cmdOp_cmdWord, nibbleOperand_cmdWord]

theorem bSyncAccept (b : Byte) : Statement (.bSyncAccept b) := by
  rintro ctx _ ⟨⟨pid, hp⟩, hs, hb⟩
  simp [decode, encode, decodeByte, hp, hs, hb, Config.syncByte]

theorem bSyncDiscard (b : Byte) : Statement (.bSyncDiscard b) := by
  rintro ctx _ ⟨⟨pid, hp⟩, hs, hb⟩
  simp only [decode, encode, decodeByte, hp, hs, Config.syncByte, if_neg hb]

theorem bPidReject (b : Byte) : Statement (.bPidReject b) := by
  rintro ctx _ ⟨pid, hp, hs, hl, h0, hb⟩
  have hr : ¬(ctx.len.toNat = 0 ∨ 10 < ctx.len.toNat) := by rw [hl]; decide
  simp only [decode, encode, decodeByte, decodeFrameByte, hp, hs, Config.pidWildcard, if_neg hr,
    if_pos (And.intro hl h0), if_neg hb]

theorem bStore (b : Byte) : Statement (.bStore b) := by
  rintro ctx _ ⟨pid, hp, hs, ⟨h1, h10⟩, hn⟩
  have hr : ¬(ctx.len.toNat = 0 ∨ 10 < ctx.len.toNat) := by omega
  simp only [decode, encode, decodeByte, decodeFrameByte, hp, hs, Config.pidWildcard, if_neg hr]
  by_cases h : ctx.len = 1 ∧ pid ≠ 0x00
  · rw [if_pos h, if_pos (by_contra fun hb => hn ⟨h.1, h.2, hb⟩)]
  · rw [if_neg h]

theorem tBreak : Statement .tBreak := by
  rintro ctx _ ⟨pid, hp⟩; simp [decode, encode, decodeEvent, hp]

theorem deliver : Statement .deliver := by
  rintro ctx _ ⟨⟨pid, hp⟩, hs, h2, h11⟩
  simp [decode, encode, decodeEvent, hp, hs, h2, show ¬11 < ctx.len.toNat by omega]

theorem dropShort : Statement .dropShort := by
  rintro ctx _ ⟨⟨pid, hp⟩, hs, h2⟩
  simp [decode, encode, decodeEvent, hp, hs, show ¬11 < ctx.len.toNat by omega, show ¬2 ≤ ctx.len.toNat by omega]

end Sys2Proof.Laws.EncodeDecode
end

