-- ==== Sys2Proof/Certificates/Slice0/Obligations.lean ====
section
/-! DEFINITION. The statements for the provers. Each docstring names the rules of `spec/` it formalises; "the spec's
decision D<n>" marks what the spec itself calls its own choice, "log <n>" what is the model's. -/

open Sys2Proof Sys2Proof.Machine

/-! ## Reset and the parameters -/

/-- The registers right after reset (R35, R190: the spec's decision D12), the default threshold (R7), and an empty queue,
clock 0 and no input, which are the model's (log 3, log 4, log 6). -/
def Obligations.ResetStateHoldsTheResetValues : Prop :=
  State.reset.buf = Vector.replicate 11 0x00 ∧ State.reset.len = 0 ∧ State.reset.st = .searchingSync ∧
  State.reset.tLast = 0 ∧ State.reset.lastLen = 0 ∧ State.reset.bound = false ∧
  State.reset.cfg.breakThreshold = 728 ∧ State.reset.rxq = [] ∧ State.reset.now = 0 ∧ State.reset.lapses = [] ∧
  State.reset.inbox = [] ∧ State.reset.poll = none ∧ State.reset.resp = none ∧ State.reset.trace = []

/-- The reset input, in any state between operations: every register takes its reset value and `rxq` and the clock stay
(R190, the spec's decision D12). That it is the head of the input list and is taken, and that no response and no label
are left, are the model's (log 6, log 7). -/
def Obligations.ResetInputClearsTheRegisters : Prop :=
  ∀ (s : State) (rest : List Input), s.poll = none → s.inbox = .reset :: rest →
    step s = .next { s with
      buf := Vector.replicate 11 0x00, len := 0, st := .searchingSync, tLast := 0, lastLen := 0, bound := false,
      inbox := rest, resp := none, trace := [] }

/-! ## Encoding -/

/-- Words written out from R72 and R79 decode to what they stand for. -/
def Obligations.WrittenOutWordsDecode : Prop :=
  decodeCmd 0b000000000000 = .ok .init ∧ decodeCmd 0b000010110101 = .ok .init ∧
  decodeCmd 0b000111001111 = .ok (.poll 0xCF) ∧ decodeCmd 0b001000000000 = .ok .lastFrame ∧
  decodeCmd 0b001100000011 = .ok (.checksum 3) ∧ decodeCmd 0b010000001011 = .ok (.validate 11) ∧
  decodeCmd 0b010100000000 = .error (.reservedOpcode 5) ∧ decodeCmd 0b001100010011 = .error .reservedArgBits ∧
  decode ⟨some ⟨0xCF, .drain⟩, .searchingSync, 0⟩ (.byte 0b01010101) = .ok (.bSyncAccept 0x55) ∧
  decode ⟨some ⟨0xCF, .drain⟩, .searchingSync, 0⟩ (.byte 0b01010100) = .ok (.bSyncDiscard 0x54) ∧
  decode ⟨some ⟨0xCF, .drain⟩, .accumulating, 1⟩ (.byte 0b00000001) = .ok (.bPidReject 0x01) ∧
  decode ⟨some ⟨0xCF, .drain⟩, .accumulating, 1⟩ (.byte 0b11001111) = .ok (.bStore 0xCF)

/-- Every well-formed instruction, with every operand: decoding its encoding gives it back, in every context that
selects it (R72, R78, R79; the words are the spec's decision D3). -/
def Obligations.DecodeOfEncodeIsTheInstruction : Prop :=
  ∀ i : Instr, Laws.EncodeDecode.Statement i

/-- Every command word that decodes is the encoding of what it decodes to, once the ignored `arg` of INIT and LASTFRAME
is set to zero: no bit of another word is dropped (R72, R81; the spec's decision D3). -/
def Obligations.EncodeOfDecodeIsTheWord : Prop :=
  ∀ (w : Cmd) (i : Instr), decodeCmd w = .ok i →
    encode i = .cmd (if cmdOp w = 0 ∨ cmdOp w = 2 then w &&& 0xF00 else w)

/-- The command words by the masks and matches of the opcode table (R72; the spec's decision D3), reserved and illegal
words included (R80, R81; the spec's decision D18). -/
def Obligations.CommandWordsByMaskAndMatch : Prop :=
  ∀ w : Cmd,
    (w &&& 0xF00 = 0x000 → decodeCmd w = .ok .init) ∧
    (w &&& 0xF00 = 0x100 → decodeCmd w = .ok (.poll (w.setWidth 8))) ∧
    (w &&& 0xF00 = 0x200 → decodeCmd w = .ok .lastFrame) ∧
    (w &&& 0xFF0 = 0x300 → decodeCmd w = .ok (.checksum (w.setWidth 4))) ∧
    (w &&& 0xFF0 = 0x400 → decodeCmd w = .ok (.validate (w.setWidth 4))) ∧
    ((w &&& 0xF00 = 0x300 ∨ w &&& 0xF00 = 0x400) → w &&& 0x0F0 ≠ 0 → decodeCmd w = .error .reservedArgBits) ∧
    (0x500 ≤ w → decodeCmd w = .error (.reservedOpcode (w.extractLsb' 8 4)))

/-- A byte popped by the drain loop decodes to the first row of R79 whose side condition holds and whose match is the
masked byte, and to nothing while the frame is ready (R79). `1 <= len <= 10` while Accumulating is R118. -/
def Obligations.ReceivedByteTakesTheFirstRow : Prop :=
  (∀ (pid b : Byte) (st : DecoderState) (len : Len), st ≠ .frameReady →
    (st = .accumulating → 1 ≤ len.toNat ∧ len.toNat ≤ 10) →
    ∃ i, decode ⟨some ⟨pid, .drain⟩, st, len⟩ (.byte b) = .ok i ∧
      ((rowsR79 pid st len b).find? fun r => r.1 && decide (b &&& r.2.1 = r.2.2.1)).map (fun r => r.2.2.2) = some i) ∧
  ∀ (pid b : Byte) (len : Len) (i : Instr), decode ⟨some ⟨pid, .drain⟩, .frameReady, len⟩ (.byte b) ≠ .ok i

/-- A sync byte inside a frame is data (R117): in Accumulating no byte is decoded as a sync candidate, and from the
third byte of a frame on `0x55` is stored like every other byte. -/
def Obligations.SyncByteInsideAFrameIsData : Prop :=
  ∀ (pid b : Byte) (len : Len),
    (∀ c, decode ⟨some ⟨pid, .drain⟩, .accumulating, len⟩ (.byte b) ≠ .ok (.bSyncAccept c) ∧
      decode ⟨some ⟨pid, .drain⟩, .accumulating, len⟩ (.byte b) ≠ .ok (.bSyncDiscard c)) ∧
    (2 ≤ len.toNat → len.toNat ≤ 10 → decode ⟨some ⟨pid, .drain⟩, .accumulating, len⟩ (.byte b) = .ok (.bStore b))

/-- Response words: each field of R75 and R76 sits where the layout puts it (the spec's decisions D4, D23). -/
def Obligations.ResponseWordsHoldTheirFields : Prop :=
  (∀ (bytes : Vector Byte 11) (n : Len),
    (∀ (i : Nat) (h : i < 11), (snapshotWord bytes n).extractLsb' (8 * i) 8 = bytes[i]) ∧
    (snapshotWord bytes n).extractLsb' 88 4 = n) ∧
  (∀ c r : Byte,
    (Verdict.matching c r).word.extractLsb' 16 1 = 1 ∧ (Verdict.mismatch c r).word.extractLsb' 16 1 = 0 ∧
    (Verdict.matching c r).word.extractLsb' 8 8 = c ∧ (Verdict.mismatch c r).word.extractLsb' 8 8 = c ∧
    (Verdict.matching c r).word.extractLsb' 0 8 = r ∧ (Verdict.mismatch c r).word.extractLsb' 0 8 = r) ∧
  (FrameResult.incomplete.word = 0 ∧ ∀ n : Len, (FrameResult.complete n).word = n)

/-! ## The step -/

/-- A command word that is the next input, with no POLL in progress, is run by `exec` with that input taken (R60, R61,
R72). -/
def Obligations.StepRunsTheCommand : Prop :=
  ∀ (s : State) (w : Cmd) (rest : List Input) (i : Instr), s.poll = none → s.inbox = .cmd w :: rest →
    decodeCmd w = .ok i → step s = exec i { s with inbox := rest }

/-- In a POLL in progress a step runs the step of the POLL that is due: the next byte, popped first, while phase 1 goes
on; then the break check; then the completion; else the POLL returns Incomplete (R101, R102, R103; the small-step
reading of a POLL is the model's, log 5). -/
def Obligations.StepRunsTheDueStepOfThePoll : Prop :=
  ∀ (s : State) (pid : Byte) (i : Instr),
    (∀ (b : Byte) (rest : List Byte), s.poll = some ⟨pid, .drain⟩ → s.st ≠ .frameReady → s.rxq = b :: rest →
      decode s.context (.byte b) = .ok i → step s = exec i { s with rxq := rest }) ∧
    (s.poll = some ⟨pid, .drain⟩ → (s.st = .frameReady ∨ s.rxq = []) → step s = exec .tBreak s) ∧
    (s.poll = some ⟨pid, .settle⟩ → s.st = .frameReady → decode s.context .event = .ok i → step s = exec i s) ∧
    (s.poll = some ⟨pid, .settle⟩ → s.st ≠ .frameReady →
      step s = .next { s with poll := none, resp := some (.frame .incomplete) })

/-- The environment's inputs touch nothing but `rxq` and the clock, and with no input the block does nothing
(R32, R33, R64, R85, R178; the input list is the model's, log 6). -/
def Obligations.EnvironmentTouchesOnlyQueueAndClock : Prop :=
  ∀ s : State, s.poll = none →
    (∀ (b : Byte) (rest : List Input), s.inbox = .rx b :: rest →
      step s = .next { s with inbox := rest, rxq := s.rxq ++ [b] }) ∧
    (∀ (d : Time) (rest : List Input), s.inbox = .tick d :: rest →
      step s = .next { s with inbox := rest, now := s.now + d }) ∧
    (s.inbox = [] → step s = .next s)

/-- Reserved opcodes and reserved `arg` bits are refused by the step (R80, R81; the spec's decision D18, U2 to U4). -/
def Obligations.ReservedCommandsAreRefused : Prop :=
  ∀ (s : State) (w : Cmd) (rest : List Input), s.poll = none → s.inbox = .cmd w :: rest →
    (5 ≤ (cmdOp w).toNat → step s = .refused (.reservedOpcode (cmdOp w))) ∧
    ((cmdOp w = 3 ∨ cmdOp w = 4) → w &&& 0x0F0 ≠ 0 → step s = .refused .reservedArgBits)

/-- While a POLL is in progress no input is taken, so no operation of the host runs (R61). -/
def Obligations.NoInputIsTakenDuringAPoll : Prop :=
  ∀ s t : State, s.poll ≠ none → step s = .next t → t.inbox = s.inbox ∧ t.bound = s.bound ∧ t.cfg = s.cfg

/-- From every state with the invariant a step goes on, unless the next input, taken between operations, is a command
word that is not legal: a POLL before INIT (D14), an operand out of range (D16, D17) or a reserved word (D18); then it
does not (R196, R197, U1 to U4; RefusalsAreTheHostsMistakes says how it is refused; the input list is the model's,
log 6, and so is the POLL in progress, log 5). -/
def Obligations.StepGoesOnExactlyAfterLegalCommands : Prop :=
  ∀ s : State, Inv s →
    ((∃ t, step s = .next t) ↔
      (s.poll = none → ∀ (w : Cmd) (rest : List Input), s.inbox = .cmd w :: rest → LegalCommand s.bound w))

/-! ## INIT -/

/-- INIT, in every state: the reset values and `bound = 1`, nothing returned, no byte popped, the clock not touched
(R100; the spec's decision D13). -/
def Obligations.InitWritesResetValuesAndBinds : Prop :=
  ∀ s : State, exec .init s = .next { s with
    buf := Vector.replicate 11 0x00, len := 0, st := .searchingSync, tLast := 0, lastLen := 0, bound := true,
    resp := none, trace := [] }

/-! ## The byte events -/

/-- B_SYNC_DISCARD, selected in SearchingSync by a byte that is not `0x55`: the label and nothing else (R105). -/
def Obligations.SyncDiscardLosesTheByte : Prop :=
  ∀ (s : State) (pid b : Byte), s.poll = some ⟨pid, .drain⟩ → s.st = .searchingSync → b ≠ 0x55 →
    exec (.bSyncDiscard b) s = .next { s with trace := s.trace ++ [.syncMismatch] }

/-- B_SYNC_ACCEPT, selected in SearchingSync by `0x55`: `buf[0]`, `len`, `st` and `t_last` with one clock sample, and
nothing else (R106, R104). -/
def Obligations.SyncAcceptStartsAFrame : Prop :=
  ∀ (s : State) (pid : Byte), s.poll = some ⟨pid, .drain⟩ → s.st = .searchingSync →
    exec (.bSyncAccept 0x55) s = .next { s with
      buf := s.buf.set 0 0x55, len := 1, st := .accumulating, tLast := clockAfter s 1, now := clockAfter s 1,
      lapses := s.lapses.drop 1 }

/-- B_PID_REJECT, selected at `len == 1` by a byte that differs from the operand of the POLL that pops it, when that is
not the wildcard: `len`, `st` and the label, and nothing else; the byte is lost, `0x55` too; a later byte is never
rejected (R107). -/
def Obligations.PidRejectAbortsTheFrame : Prop :=
  (∀ (s : State) (pid b : Byte), s.poll = some ⟨pid, .drain⟩ → s.st = .accumulating → s.len = 1 → pid ≠ 0x00 → b ≠ pid →
    exec (.bPidReject b) s = .next { s with len := 0, st := .searchingSync, trace := s.trace ++ [.pidMismatch] }) ∧
  ∀ (s t : State) (b : Byte), s.len ≠ 1 → exec (.bPidReject b) s ≠ .next t

/-- B_STORE, selected in Accumulating wherever B_PID_REJECT is not: the byte at `buf[len]`, `len + 1`, `t_last` with one
clock sample, FrameReady exactly when that was the eleventh byte, and nothing else (R108, R109); of the labels, only
Overflow, exactly when that was the eleventh byte and more bytes are at hand (R161, R166; where it is emitted is
log 11). -/
def Obligations.StoreAppendsTheByte : Prop :=
  ∀ (s : State) (pid b : Byte), s.poll = some ⟨pid, .drain⟩ → s.st = .accumulating →
    ∀ (_ : 1 ≤ s.len.toNat) (high : s.len.toNat ≤ 10), ¬(s.len = 1 ∧ pid ≠ 0x00 ∧ b ≠ pid) →
    exec (.bStore b) s = .next { s with
      buf := s.buf.set s.len.toNat b, len := s.len + 1, tLast := clockAfter s 1, now := clockAfter s 1,
      lapses := s.lapses.drop 1, st := if s.len.toNat + 1 = 11 then .frameReady else .accumulating,
      trace := if s.len.toNat + 1 = 11 ∧ s.rxq ≠ [] then s.trace ++ [.overflow] else s.trace }

/-- The frame of the byte events and of the three steps without a byte, by the read of one buffer byte: the only index
stored to is 0 for B_SYNC_ACCEPT and `len` for B_STORE, all others store nothing; and none of the seven touches the
parameters, `bound`, `rxq`, the input list or, but for DELIVER, `last_len` (R20, R52, R105 to R112). -/
def Obligations.PollStepsKeepTheRest : Prop :=
  ∀ (i : Instr) (s t : State), i.isHost = false → exec i s = .next t →
    (∀ j : Nat, (∀ b, i = .bSyncAccept b → j ≠ 0) → (∀ b, i = .bStore b → j ≠ s.len.toNat) →
      t.readBuf j = s.readBuf j) ∧
    t.cfg = s.cfg ∧ t.bound = s.bound ∧ t.rxq = s.rxq ∧ t.inbox = s.inbox ∧
    (i ≠ .deliver → t.lastLen = s.lastLen) ∧
    ((∀ b, i ≠ .bSyncAccept b) → (∀ b, i ≠ .bStore b) → t.tLast = s.tLast)

/-- Each of the seven steps of a POLL runs exactly where it is selected and its precondition holds, and is refused
everywhere else: alone, above all (R78, "cannot be issued alone"). The byte events and the completions are selected by
R78 and R79, within the register states of the rules only: B_STORE at `1 <= len <= 10` (R108, R118), DELIVER at
`len <= 11` (the others are U9; log 8). T_BREAK runs after every drain (R110), fired or not. The phases are log 5. -/
def Obligations.PollStepsRunExactlyWhereSelected : Prop :=
  ∀ (i : Instr) (s : State), i.isHost = false →
    (Selects s.context i ∧ (i = .tBreak → s.st = .frameReady ∨ s.rxq = []) → ∃ t, exec i s = .next t) ∧
    (¬(Selects s.context i ∧ (i = .tBreak → s.st = .frameReady ∨ s.rxq = [])) →
      exec i s = .refused .stepNotSelected) ∧
    (s.poll = none → exec i s = .refused .stepNotSelected)

/-! ## The break check and the completions -/

/-- T_BREAK, after the drain: one clock sample; in Accumulating with the threshold reached the frame is ready and the
label Break is emitted, else only the sample is taken (R110; subtraction modulo 2^64 is the spec's decision D9; the
phase of the POLL is the model's, log 5). -/
def Obligations.BreakCheckFiresAtTheThreshold : Prop :=
  ∀ (s : State) (pid : Byte), s.poll = some ⟨pid, .drain⟩ → (s.st = .frameReady ∨ s.rxq = []) →
    ((s.st = .accumulating ∧ s.cfg.breakThreshold.toNat ≤ (clockAfter s 1 - s.tLast).toNat) →
      exec .tBreak s = .next { s with
        st := .frameReady, now := clockAfter s 1, lapses := s.lapses.drop 1, poll := some ⟨pid, .settle⟩,
        trace := s.trace ++ [.breakSeen] }) ∧
    (¬(s.st = .accumulating ∧ s.cfg.breakThreshold.toNat ≤ (clockAfter s 1 - s.tLast).toNat) →
      exec .tBreak s = .next { s with
        now := clockAfter s 1, lapses := s.lapses.drop 1, poll := some ⟨pid, .settle⟩ })

/-- DELIVER: `Complete(len)`, back to SearchingSync, `last_len` written, the buffer left (R111; `last_len` is the
spec's decision D10). -/
def Obligations.DeliverHandsOutTheLength : Prop :=
  ∀ (s : State) (pid : Byte), s.poll = some ⟨pid, .settle⟩ → s.st = .frameReady → 2 ≤ s.len.toNat → s.len.toNat ≤ 11 →
    exec .deliver s = .next { s with
      st := .searchingSync, len := 0, lastLen := s.len, poll := none, resp := some (.frame (.complete s.len)) }

/-- DROP_SHORT: Incomplete, back to SearchingSync, the label Truncated, `last_len` not written (R112; the last is the
spec's decision D10). -/
def Obligations.DropShortIsSilent : Prop :=
  ∀ (s : State) (pid : Byte), s.poll = some ⟨pid, .settle⟩ → s.st = .frameReady → s.len.toNat < 2 →
    exec .dropShort s = .next { s with
      st := .searchingSync, len := 0, poll := none, resp := some (.frame .incomplete),
      trace := s.trace ++ [.truncated] }

/-! ## POLL -/

/-- When a POLL is refused: before INIT (R101, R193, U1: the spec's decision D14), and where `len` is above 11 or, in
Accumulating, not 1 to 10; from every other bound state it gives a next state. The register condition is the model's
reading of U9 and R118 (log 8): Accumulating with `len = 11` is refused, which U9 does not list, and a `last_len` of 1 or
12 to 15, which U9 lists, does not stop a POLL. -/
def Obligations.PollIsRefusedBeforeInitAndOutsideTheRules : Prop :=
  ∀ (s : State) (pid : Byte),
    (s.bound = false → exec (.poll pid) s = .refused .pollBeforeInit) ∧
    (s.bound = true → ¬RegistersInRules s → exec (.poll pid) s = .refused .registersOutsideRules) ∧
    (s.bound = true → RegistersInRules s → ∃ t, exec (.poll pid) s = .next t)

/-- A POLL, whole: from every bound state in which it runs, with `len = 0` in SearchingSync (R28 (a)), it ends in the state
the transition table R114 gives, with its stores, its clock samples (R104), its labels (R161), its response (R75) and
everything else unchanged (R101, R102, R110 to R112, R120). The list of clock advances is log 4, the response and the
labels as fields are log 7, the label Overflow is log 11, the states in which a POLL runs are log 8. -/
def Obligations.PollIsTheTransitionTable : Prop :=
  ∀ (s : State) (pid : Byte), s.bound = true → RegistersInRules s → (s.st = .searchingSync → s.len = 0) →
    exec (.poll pid) s = .next (pollByTable pid s)

/-- A POLL in steps: from the state in which the POLL has been opened, at most one step for each byte and two more of
the machine end in the state `exec` gives for the whole POLL (R78, R101; the small-step reading is the model's,
log 5). -/
def Obligations.PollIsMadeOfItsSteps : Prop :=
  ∀ (s : State) (pid : Byte), s.bound = true → RegistersInRules s →
    ∃ (t : State) (k : Nat), k ≤ s.rxq.length + 2 ∧ exec (.poll pid) s = .next t ∧
      Host.Core.run Sys2Proof.core k { s with resp := none, trace := [], poll := some ⟨pid, .drain⟩ } = .next t

/-- Every POLL ends, from every bound state between operations: with no POLL in progress, the invariants R28 (a) to (e),
and a FrameResult that is Incomplete or a length in 2..11 (R75, R116, R28). -/
def Obligations.PollEndsBetweenOperations : Prop :=
  ∀ (s : State) (pid : Byte), s.bound = true → BetweenOperations s →
    ∃ (t : State) (r : FrameResult), exec (.poll pid) s = .next t ∧ t.poll = none ∧ BetweenOperations t ∧
      t.resp = some (.frame r) ∧ (r = .incomplete ∨ ∃ n, r = .complete n ∧ 2 ≤ n.toNat ∧ n.toNat ≤ 11)

/-- What a POLL leaves alone, from every bound state of the rules with `len = 0` in SearchingSync: the parameters,
`bound`, the inputs; `last_len` but for a completed frame (R24); and every buffer byte at an index the transition table
does not store to (R114). -/
def Obligations.PollKeepsTheRest : Prop :=
  ∀ (s : State) (pid : Byte), s.bound = true → RegistersInRules s → (s.st = .searchingSync → s.len = 0) →
    ∃ t, exec (.poll pid) s = .next t ∧ t.cfg = s.cfg ∧ t.bound = s.bound ∧ t.inbox = s.inbox ∧
      (t.lastLen = s.lastLen ∨ t.resp = some (.frame (.complete t.lastLen))) ∧
      ∀ j : Nat, j ∉ (drainByTable pid s.st s.len.toNat s.rxq).stored.map Prod.fst → t.readBuf j = s.readBuf j

/-- A POLL from a bound state in which it runs, with `len = 0` in SearchingSync and no frame ready, consumes a prefix of
the bytes at hand and leaves the rest: all of them, or up to and including the byte that makes `len` 11, when it returns
`Complete(11)` (R102, R109). No shorter prefix makes a frame ready, so popping stops at that byte. -/
def Obligations.PollConsumesAPrefix : Prop :=
  ∀ (s : State) (pid : Byte), s.bound = true → RegistersInRules s → (s.st = .searchingSync → s.len = 0) →
    s.st ≠ .frameReady →
    ∃ (t : State) (used : List Byte), exec (.poll pid) s = .next t ∧ s.rxq = used ++ t.rxq ∧
      t.rxq = (drainByTable pid s.st s.len.toNat s.rxq).left ∧
      (∀ k < used.length, (drainByTable pid s.st s.len.toNat (used.take k)).st ≠ .frameReady) ∧
      (t.rxq ≠ [] → (drainByTable pid s.st s.len.toNat used).st = .frameReady ∧
        (drainByTable pid s.st s.len.toNat used).len = 11 ∧ t.resp = some (.frame (.complete 11)))

/-- Bytes without `0x55` never complete a frame: all are lost, each with a SyncMismatch (R119 property 1, R105, R162). -/
def Obligations.WithoutSyncNoFrame : Prop :=
  ∀ (s : State) (pid : Byte), s.bound = true → s.poll = none → s.st = .searchingSync → s.len = 0 →
    (∀ b ∈ s.rxq, b ≠ 0x55) →
    exec (.poll pid) s = .next { s with
      rxq := [], now := clockAfter s 1, lapses := s.lapses.drop 1, resp := some (.frame .incomplete),
      trace := List.replicate s.rxq.length .syncMismatch }

/-- A rejected PID byte is lost, be it `0x55`, and the drain goes on with the bytes after it in the same POLL (R102,
R107, R119 property 3, R206; going on is the spec's decision D7). -/
def Obligations.RejectGoesOnAfterTheRejectedByte : Prop :=
  ∀ (s : State) (pid b : Byte) (rest : List Byte), s.bound = true → s.st = .searchingSync → s.len = 0 →
    s.rxq = 0x55 :: b :: rest → pid ≠ 0x00 → b ≠ pid →
    ∃ u, exec (.poll pid) { s with
        rxq := rest, buf := s.buf.set 0 0x55, tLast := clockAfter s 1, now := clockAfter s 1,
        lapses := s.lapses.drop 1 } = .next u ∧
      exec (.poll pid) s = .next { u with trace := .pidMismatch :: u.trace }

/-- A frame a POLL keeps has the operand at position 1, when the operand is not the wildcard and the POLL took the frame
from its sync byte on (R27 (a) and (b), R107). -/
def Obligations.KeptFrameHasTheExpectedPid : Prop :=
  ∀ (s : State) (pid : Byte), s.bound = true → s.st = .searchingSync → s.len = 0 → pid ≠ 0x00 →
    ∃ t, exec (.poll pid) s = .next t ∧
      ((2 ≤ t.len.toNat ∨ ∃ n, t.resp = some (.frame (.complete n))) → t.readBuf 0 = 0x55 ∧ t.readBuf 1 = pid)

/-- Eleven bytes from a sync byte that pass the filter complete the frame at 11 in one POLL, whatever the clock does; the
surplus stays in the queue, and its presence is what the label Overflow says (R109, R118, R119 property 4, R161, R166;
where the label is emitted is log 11). -/
def Obligations.ElevenBytesForceCompletion : Prop :=
  ∀ (s : State) (pid p : Byte) (data surplus : List Byte), s.bound = true → s.st = .searchingSync → s.len = 0 →
    s.rxq = 0x55 :: p :: data ++ surplus → data.length = 9 → (pid = 0x00 ∨ p = pid) →
    ∃ t, exec (.poll pid) s = .next t ∧ t.resp = some (.frame (.complete 11)) ∧ t.lastLen = 11 ∧
      t.buf.toList = 0x55 :: p :: data ∧ t.rxq = surplus ∧ t.st = .searchingSync ∧ t.len = 0 ∧
      t.trace = if surplus = [] then [] else [.overflow]

/-- Bytes at hand that fit are appended to the frame in progress, and a POLL that takes no time sees no break after
them (R52, R108, R110 corner e, R202). -/
def Obligations.PollAppendsToTheFrameInProgress : Prop :=
  ∀ (s : State) (pid : Byte), s.bound = true → s.st = .accumulating → 2 ≤ s.len.toNat → s.lapses = [] → s.cfg.Legal →
    s.rxq ≠ [] → s.len.toNat + s.rxq.length ≤ 10 →
    ∃ t, exec (.poll pid) s = .next t ∧ t.resp = some (.frame .incomplete) ∧ t.st = .accumulating ∧
      t.len.toNat = s.len.toNat + s.rxq.length ∧ t.tLast = s.now ∧ t.rxq = [] ∧ t.trace = [] ∧
      t.buf.toList.take (s.len.toNat + s.rxq.length) = s.buf.toList.take s.len.toNat ++ s.rxq

/-- Bytes come before time: a POLL in Accumulating that finds a byte and takes no time emits no Break, however long the
silence was (R171, R202). -/
def Obligations.WaitingByteBeatsAnExpiredSilence : Prop :=
  ∀ (s : State) (pid : Byte), s.bound = true → RegistersInRules s → s.st = .accumulating → s.rxq ≠ [] → s.lapses = [] →
    s.cfg.Legal → ∃ t, exec (.poll pid) s = .next t ∧ .breakSeen ∉ t.trace

/-- A POLL with no byte at hand and a frame in progress: it waits below the threshold; at the threshold it completes a
frame of two bytes or more and drops a lone sync byte (R110, R112, R165). -/
def Obligations.SilentPollCompletesOrWaits : Prop :=
  ∀ (s : State) (pid : Byte), s.bound = true → s.poll = none → RegistersInRules s → s.st = .accumulating → s.rxq = [] →
    ((clockAfter s 1 - s.tLast).toNat < s.cfg.breakThreshold.toNat →
      exec (.poll pid) s = .next { s with
        now := clockAfter s 1, lapses := s.lapses.drop 1, resp := some (.frame .incomplete), trace := [] }) ∧
    (s.cfg.breakThreshold.toNat ≤ (clockAfter s 1 - s.tLast).toNat → 2 ≤ s.len.toNat →
      exec (.poll pid) s = .next { s with
        now := clockAfter s 1, lapses := s.lapses.drop 1, st := .searchingSync, len := 0, lastLen := s.len,
        resp := some (.frame (.complete s.len)), trace := [.breakSeen] }) ∧
    (s.cfg.breakThreshold.toNat ≤ (clockAfter s 1 - s.tLast).toNat → s.len = 1 →
      exec (.poll pid) s = .next { s with
        now := clockAfter s 1, lapses := s.lapses.drop 1, st := .searchingSync, len := 0,
        resp := some (.frame .incomplete), trace := [.breakSeen, .truncated] })

/-- POLL entered with `st == FrameReady`: no byte is popped, the break check does nothing but sample the clock, and the
frame is delivered or dropped (R120). -/
def Obligations.PollEnteredReadyDeliversOrDrops : Prop :=
  ∀ (s : State) (pid : Byte), s.bound = true → s.poll = none → s.st = .frameReady → s.len.toNat ≤ 11 →
    exec (.poll pid) s = .next { s with
      now := clockAfter s 1, lapses := s.lapses.drop 1, st := .searchingSync, len := 0,
      lastLen := if 2 ≤ s.len.toNat then s.len else s.lastLen,
      resp := some (.frame (if 2 ≤ s.len.toNat then .complete s.len else .incomplete)),
      trace := if 2 ≤ s.len.toNat then [] else [.truncated] }

/-- A frame that comes in any number of bursts, each found by a POLL with the same operand, and is then followed by a
silence of the threshold or more, is delivered exactly once, with length 2 plus the bytes after the PID, and its bytes
are in the buffer; by the POLL after the silence, unless it has eleven bytes and so is complete before it (R119
property 2, R109, R111, R202; POLLs take no time, as in the spec's scripts R85). Of POLLs that find no byte before the
silence ends SilentPollCompletesOrWaits speaks. -/
def Obligations.FrameInBurstsIsDeliveredOnce : Prop :=
  ∀ (s : State) (pid : Byte) (data : List Byte) (bursts : List (List Byte × Time)) (silence later : Time),
    s.bound = true → s.st = .searchingSync → s.len = 0 → s.rxq = [] → s.lapses = [] → s.cfg.Legal → pid ≠ 0x00 →
    (bursts.map Prod.fst).flatten = 0x55 :: pid :: data → data.length ≤ 9 → (∀ burst ∈ bursts, burst.1 ≠ []) →
    s.cfg.breakThreshold.toNat ≤ silence.toNat →
    ∃ t responses, pollBursts pid (bursts ++ [([], silence), ([], later)]) s = some (t, responses) ∧
      responses.filter (fun r => decide (r ≠ some (.frame .incomplete))) =
        [some (.frame (.complete (BitVec.ofNat 4 (2 + data.length))))] ∧
      (data.length ≤ 8 → responses = List.replicate bursts.length (some (.frame .incomplete)) ++
        [some (.frame (.complete (BitVec.ofNat 4 (2 + data.length)))), some (.frame .incomplete)]) ∧
      t.lastLen.toNat = 2 + data.length ∧ t.buf.toList.take (2 + data.length) = 0x55 :: pid :: data

/-- A delivered frame can be read and is handed out once: `last_len` is the length, LASTFRAME gives it with the buffer,
VALIDATE of it runs, and a POLL that finds no byte returns Incomplete and leaves both (R111, R113, R201; that LASTFRAME
reads the live registers is the spec's decision D11). -/
def Obligations.DeliveredFrameIsReadableAndHandedOutOnce : Prop :=
  ∀ (s t : State) (pid later : Byte) (n : Len), BetweenOperations s → exec (.poll pid) s = .next t →
    t.resp = some (.frame (.complete n)) →
    t.lastLen = n ∧ t.readBuf 0 = 0x55 ∧
    (∃ u, exec .lastFrame t = .next u ∧ u.resp = some (.snapshot t.buf n)) ∧
    (∃ u v, exec (.validate n) t = .next u ∧ u.resp = some (.verdict v)) ∧
    (∃ u, exec (.poll later) { t with rxq := [] } = .next u ∧ u.resp = some (.frame .incomplete) ∧
      u.buf = t.buf ∧ u.lastLen = n)

/-- One tick of the consumer (R84): from every bound state between operations it runs to its end, since the length a
POLL reports is always an operand VALIDATE takes. -/
def Obligations.ConsumerTickIsNeverRefused : Prop :=
  ∀ (s : State) (pid : Byte), s.bound = true → BetweenOperations s →
    ∃ t, tickConsumer pid s = .next t ∧
      (t.resp = some (.frame .incomplete) ∨ ∃ v, t.resp = some (.verdict v))

/-! ## LASTFRAME, CHECKSUM, VALIDATE -/

/-- LASTFRAME, in every state: the live buffer and `last_len`, and no register written (R113; the spec's decision D11). -/
def Obligations.LastFrameReturnsTheLiveRegisters : Prop :=
  ∀ s : State, exec .lastFrame s = .next { s with resp := some (.snapshot s.buf s.lastLen), trace := [] }

/-- CHECKSUM with `n` in 0..11, in every state: the checksum over the buffer, and no register written; a larger `n` is
refused (R141; the range is the spec's decision D16, U3). -/
def Obligations.ChecksumReturnsTheFunction : Prop :=
  ∀ (s : State) (n : Len),
    (n.toNat ≤ 11 → exec (.checksum n) s =
      .next { s with resp := some (.checksum (checksum s.buf.toList n.toNat)), trace := [] }) ∧
    (11 < n.toNat → exec (.checksum n) s = .refused .checksumOperand)

/-- The function `checksum(B, n)` by its steps over numbers: sum `B[1]` to `B[n-1]`, take `0xFF` away after each addition
that exceeds it, complement (R140). -/
def Obligations.ChecksumFollowsItsSteps : Prop :=
  ∀ (B : List Byte) (n : Nat), n ≤ B.length →
    (checksum B n).toNat = 0xFF - (List.range' 1 (n - 1)).foldl
      (fun acc i => if 0xFF < acc + (B.getD i 0).toNat then acc + (B.getD i 0).toNat - 0xFF
        else acc + (B.getD i 0).toNat) 0

/-- The closed form and its corners: with `S` the plain sum, `0xFF` where `S` is 0, else `0xFE - ((S - 1) mod 255)`;
`0xFF` only for `S = 0`, `0x00` exactly for positive multiples of 255, and `0xFF` for `n <= 1`; and the accumulator stays
at most `0xFF` (R143 laws 1, 3, 4, 6, which the spec derives from R140). R140 and R143 speak of `n <= size(B)`; that the
same holds for a larger `n` is the model's choice (log 12). -/
def Obligations.ChecksumHasItsClosedForm : Prop :=
  ∀ (B : List Byte) (n : Nat),
    let S := (((B.take n).drop 1).map BitVec.toNat).sum
    (checksum B n).toNat = (if S = 0 then 0xFF else 0xFE - (S - 1) % 255) ∧
    ((checksum B n = 0xFF ↔ S = 0) ∧ (checksum B n = 0x00 ↔ 0 < S ∧ S % 255 = 0)) ∧
    (n ≤ 1 → checksum B n = 0xFF) ∧ (checksumAcc B n).toNat ≤ 0xFF

/-- The order of the bytes summed, the first byte, and the bytes at index `n` and above do not matter (R143 law 5, which
the spec derives from R140). R140 and R143 speak of lengths up to the size of the sequence; what is summed for a larger
one is the model's choice (log 12). -/
def Obligations.ChecksumDependsOnlyOnTheSummedBytes : Prop :=
  ∀ (B C : List Byte) (n m : Nat), ((B.take n).drop 1).Perm ((C.take m).drop 1) → checksum B n = checksum C m

/-- The fold `(s & 0xFF) + (s >> 8)` after each addition is the rule's subtraction wherever the rule applies it, and the
`mod 255` form is not (R144 (a), (b), which the spec derives; C3). -/
def Obligations.FoldFormAgreesAndMod255Differs : Prop :=
  (∀ (acc : Acc) (b : Byte), acc ≤ 0xFF →
    sumStep acc b = ((acc + b.setWidth 9) &&& (0xFF : Acc)) + ((acc + b.setWidth 9) >>> 8)) ∧
  ∃ (acc : Acc) (b : Byte), acc ≤ 0xFF ∧ sumStep acc b ≠ (acc + b.setWidth 9) % 0xFF

/-- VALIDATE with `L` in 2..11, in every state: both checksum values with Match exactly when they are equal, the label
of a mismatch, and no register written; another `L` is refused (R142, R164; the range is the spec's decision D17, U4). -/
def Obligations.ValidateComparesTheChecksums : Prop :=
  ∀ (s : State) (L : Len),
    (2 ≤ L.toNat → L.toNat ≤ 11 →
      let computed := checksum s.buf.toList (L.toNat - 1)
      let received := s.readBuf (L.toNat - 1)
      (computed = received → exec (.validate L) s =
        .next { s with resp := some (.verdict (.matching computed received)), trace := [] }) ∧
      (computed ≠ received → exec (.validate L) s =
        .next { s with resp := some (.verdict (.mismatch computed received)), trace := [.checksumMismatch] })) ∧
    (L.toNat < 2 ∨ 11 < L.toNat → exec (.validate L) s = .refused .validateOperand)

/-- VALIDATE as a composition: it matches exactly when CHECKSUM of `L - 1` equals byte `L - 1` of what LASTFRAME returns
(R142, R84). -/
def Obligations.ValidateIsChecksumAndLastFrame : Prop :=
  ∀ (s : State) (L : Len), 2 ≤ L.toNat → L.toNat ≤ 11 →
    ∃ (t u v : State) (verdict : Verdict) (c : Byte) (bytes : Vector Byte 11) (n : Len),
      exec (.validate L) s = .next t ∧ t.resp = some (.verdict verdict) ∧
      exec (.checksum (L - 1)) s = .next u ∧ u.resp = some (.checksum c) ∧
      exec .lastFrame s = .next v ∧ v.resp = some (.snapshot bytes n) ∧
      (verdict.isMatch = true ↔ bytes[L.toNat - 1]? = some c)

/-- The round trip: a frame closed by the checksum of what stands before it validates, whatever its first byte, its PID
and its 0 to 8 data bytes (R146). -/
def Obligations.FrameWithItsChecksumValidates : Prop :=
  ∀ (s : State) (first pid : Byte) (data : List Byte), data.length ≤ 8 →
    s.buf.toList.take (data.length + 3) =
      first :: pid :: data ++ [checksum (first :: pid :: data) (2 + data.length)] →
    ∃ (t : State) (c : Byte), exec (.validate (BitVec.ofNat 4 (data.length + 3))) s = .next t ∧
      t.resp = some (.verdict (.matching c c))

/-- Short frames: of two bytes `[55 P]` validates exactly `P = 0xFF`; of three, the computed value is the complement of
the PID (R147, which the spec derives from R140 and R142). -/
def Obligations.ShortFramesValidateAsStated : Prop :=
  ∀ s : State,
    (∃ t, exec (.validate 2) s = .next t ∧ t.resp = some (.verdict (verdictOf 0xFF (s.readBuf 1)))) ∧
    (∃ t, exec (.validate 3) s = .next t ∧ t.resp = some (.verdict (verdictOf (~~~(s.readBuf 1)) (s.readBuf 2))))

/-- The frame of the three readers: when LASTFRAME, CHECKSUM or VALIDATE gives a next state, no register, no parameter
and nothing of the environment has changed, and the same operation again gives the same answer (R58, R145, R164). -/
def Obligations.ReadersChangeNothing : Prop :=
  ∀ (i : Instr) (s t : State), (i = .lastFrame ∨ (∃ n, i = .checksum n) ∨ ∃ L, i = .validate L) →
    exec i s = .next t →
    SameRegisters s t ∧ SameEnvironment s t ∧ t.poll = s.poll ∧ (∀ j, t.readBuf j = s.readBuf j) ∧ exec i t = .next t

/-! ## The whole machine -/

/-- The invariant holds at reset. -/
def Obligations.ResetSatisfiesTheInvariant : Prop := Inv State.reset

/-- Every step keeps the invariant, from every state that has it, inside a POLL too (R27 (a), R28, R25; the parts that
speak of a POLL in progress are the model's, log 5). -/
def Obligations.EveryStepKeepsTheInvariant : Prop :=
  ∀ s t : State, Inv s → step s = .next t → Inv t

/-- Between operations the invariant gives R28 (a) to (e) as they are stated. -/
def Obligations.InvariantGivesTheStatedOnes : Prop :=
  ∀ s : State, Inv s → s.poll = none → BetweenOperations s

/-- With the invariant no step is refused for the registers' sake: what a step refuses is a POLL before INIT, a reserved
word or an operand out of range (U1 to U4; R196). -/
def Obligations.RefusalsAreTheHostsMistakes : Prop :=
  ∀ (s : State) (r : Refusal), Inv s → step s = .refused r →
    r = .pollBeforeInit ∨ (∃ op, r = .reservedOpcode op) ∨ r = .reservedArgBits ∨ r = .checksumOperand ∨
      r = .validateOperand

/-- Every change of `st` by an operation other than POLL is one of R114 (POLL is made of the steps meant here; the reset
input is no operation). Nothing leads from SearchingSync to FrameReady or from FrameReady to Accumulating; Accumulating is
entered only by B_SYNC_ACCEPT; FrameReady only by B_STORE of the eleventh byte or by T_BREAK; SearchingSync is entered from
Accumulating only by B_PID_REJECT or INIT and from FrameReady only by DELIVER, DROP_SHORT or INIT, with `len = 0`; and
LASTFRAME, CHECKSUM and VALIDATE change neither `st` nor `len`. -/
def Obligations.StateChangesAreThoseOfTheTable : Prop :=
  ∀ (i : Instr) (s t : State), (∀ pid, i ≠ .poll pid) → exec i s = .next t →
    ¬(s.st = .searchingSync ∧ t.st = .frameReady) ∧ ¬(s.st = .frameReady ∧ t.st = .accumulating) ∧
    (s.st = .searchingSync → t.st = .accumulating → i = .bSyncAccept 0x55 ∧ t.len = 1) ∧
    (s.st = .accumulating → t.st = .frameReady → (∃ b, i = .bStore b ∧ s.len = 10 ∧ t.len = 11) ∨
      i = .tBreak ∧ t.len = s.len) ∧
    (s.st = .accumulating → t.st = .searchingSync → (i = .init ∨ ∃ b, i = .bPidReject b ∧ s.len = 1) ∧ t.len = 0) ∧
    (s.st = .frameReady → t.st = .searchingSync → (i = .init ∨ (i = .deliver ∧ 2 ≤ s.len.toNat) ∨
      (i = .dropShort ∧ s.len.toNat < 2)) ∧ t.len = 0) ∧
    ((i = .lastFrame ∨ (∃ n, i = .checksum n) ∨ ∃ L, i = .validate L) → t.st = s.st ∧ t.len = s.len)

/-- Whole-machine rules on single registers. No step changes the parameters (R7). `bound` is set only by INIT and cleared
only by the reset input (R25). `last_len` changes only to 0, by INIT or the reset input, or, by a POLL or its DELIVER, to
the length, 2 to 11, of the frame handed out in that step (R24, R100, R190; the spec's decisions D10, D12, D13). The input
list is the model's (log 6). -/
def Obligations.RegistersChangeOnlyByTheirWriters : Prop :=
  ∀ s t : State, step s = .next t →
    let comes (i : Instr) : Prop := s.poll = none ∧ ∃ w, s.inbox.head? = some (.cmd w) ∧ decodeCmd w = .ok i
    let resets : Prop := s.poll = none ∧ s.inbox.head? = some .reset
    t.cfg = s.cfg ∧
    (s.bound = false → t.bound = true → comes .init) ∧
    (s.bound = true → t.bound = false → resets) ∧
    (t.lastLen ≠ s.lastLen →
      (t.lastLen = 0 ∧ (comes .init ∨ resets)) ∨
      (t.resp = some (.frame (.complete t.lastLen)) ∧ 2 ≤ t.lastLen.toNat ∧ t.lastLen.toNat ≤ 11 ∧
        ((∃ pid, comes (.poll pid)) ∨ ∃ pid, s.poll = some ⟨pid, .settle⟩ ∧ s.st = .frameReady ∧ t.lastLen = s.len)))
end

