-- ==== Sys2Proof/Laws/Checksum.lean ====
section
/-! SUPPORT. The checksum over numbers: one addition, the accumulator's bound, the complement, and what VALIDATE answers. -/

namespace Sys2Proof.Machine

/-- One addition of the checksum, on the accumulator as a number (R140 step 2). -/
def sumStepNat (acc : Nat) (b : Byte) : Nat :=
  if 0xFF < acc + b.toNat then acc + b.toNat - 0xFF else acc + b.toNat

theorem toNat_acc_add {acc : Acc} (b : Byte) (h : acc.toNat ≤ 255) :
    (acc + b.setWidth 9).toNat = acc.toNat + b.toNat := by
  have hb := b.isLt
  rw [BitVec.toNat_add, BitVec.toNat_setWidth]
  omega

theorem toNat_sumStep {acc : Acc} (b : Byte) (h : acc.toNat ≤ 255) :
    (sumStep acc b).toNat = sumStepNat acc.toNat b := by
  have hb := b.isLt
  have hadd := toNat_acc_add b h
  have hlt : (0xFF < acc + b.setWidth 9) = (0xFF < acc.toNat + b.toNat) := by
    rw [BitVec.lt_def, hadd]; rfl
  unfold sumStep sumStepNat
  simp only [hlt]
  split
  · rw [BitVec.toNat_sub, hadd]; simp; omega
  · exact hadd

theorem sumStepNat_le {acc : Nat} (b : Byte) (h : acc ≤ 255) : sumStepNat acc b ≤ 255 := by
  have := b.isLt
  unfold sumStepNat
  split <;> omega

/-- The fold of the checksum is the fold over numbers, and stays at most `0xFF` after each addition (R140). -/
theorem foldl_sumStep (l : List Byte) {acc : Acc} (h : acc.toNat ≤ 255) :
    (l.foldl sumStep acc).toNat = l.foldl sumStepNat acc.toNat ∧ (l.foldl sumStep acc).toNat ≤ 255 := by
  induction l generalizing acc with
  | nil => exact ⟨rfl, h⟩
  | cons b l ih =>
    have hs := toNat_sumStep b h
    have hle := sumStepNat_le b h
    rw [List.foldl_cons, List.foldl_cons, ← hs]
    exact ih (by omega)

theorem toNat_checksumAcc (B : List Byte) (n : Nat) :
    (checksumAcc B n).toNat = (summedBytes B n).foldl sumStepNat 0 := (foldl_sumStep _ (by decide)).1

theorem checksumAcc_le (B : List Byte) (n : Nat) : (checksumAcc B n).toNat ≤ 255 := (foldl_sumStep _ (by decide)).2

/-- The complement of the accumulator at 8 bits (R140 step 3). -/
theorem toNat_checksum (B : List Byte) (n : Nat) : (checksum B n).toNat = 255 - (checksumAcc B n).toNat := by
  have h := checksumAcc_le B n
  rw [checksum, BitVec.toNat_setWidth, BitVec.toNat_not]
  omega

theorem summedBytes_eq_map {B : List Byte} {n : Nat} (h : n ≤ B.length) :
    summedBytes B n = (List.range' 1 (n - 1)).map fun i => B.getD i 0 := by
  apply List.ext_getElem
  · simp [summedBytes]; omega
  · intro i h1 h2
    simp [summedBytes] at h1 h2 ⊢
    rw [List.getElem?_eq_getElem (by omega)]
    simp [Nat.add_comm]

/-- The checksum reads only the bytes it sums (R140). -/
theorem checksum_congr {B C : List Byte} {n m : Nat} (h : summedBytes B n = summedBytes C m) :
    checksum B n = checksum C m := by
  simp only [checksum, checksumAcc, h]

/-- VALIDATE in range answers the comparison `validation` (R142). -/
theorem execValidate_resp {L : Len} (s : State) (h : 2 ≤ L.toNat ∧ L.toNat ≤ 11) :
    ∃ t, execValidate L s = .next t ∧ t.resp = some (.verdict (validation L s)) := by
  have hv : validateOperandOk L = true := decide_eq_true h
  refine ⟨_, by simp only [execValidate, hv, if_true]; rfl, ?_⟩
  split <;> rfl

end Sys2Proof.Machine
end

