-- ==== Sys2Proof/Laws/State.lean ====
section
/-! SUPPORT. For each named update of the state, what each field holds after it. -/

namespace Sys2Proof.Machine.State

@[simp] theorem writeBuf_cfg (s : State) (i : Nat) (b : Byte) : (s.writeBuf i b).cfg = s.cfg := rfl
@[simp] theorem writeBuf_buf (s : State) (i : Nat) (b : Byte) : (s.writeBuf i b).buf = s.buf.setIfInBounds i b := rfl
@[simp] theorem writeBuf_len (s : State) (i : Nat) (b : Byte) : (s.writeBuf i b).len = s.len := rfl
@[simp] theorem writeBuf_st (s : State) (i : Nat) (b : Byte) : (s.writeBuf i b).st = s.st := rfl
@[simp] theorem writeBuf_tLast (s : State) (i : Nat) (b : Byte) : (s.writeBuf i b).tLast = s.tLast := rfl
@[simp] theorem writeBuf_lastLen (s : State) (i : Nat) (b : Byte) : (s.writeBuf i b).lastLen = s.lastLen := rfl
@[simp] theorem writeBuf_bound (s : State) (i : Nat) (b : Byte) : (s.writeBuf i b).bound = s.bound := rfl
@[simp] theorem writeBuf_rxq (s : State) (i : Nat) (b : Byte) : (s.writeBuf i b).rxq = s.rxq := rfl
@[simp] theorem writeBuf_now (s : State) (i : Nat) (b : Byte) : (s.writeBuf i b).now = s.now := rfl
@[simp] theorem writeBuf_lapses (s : State) (i : Nat) (b : Byte) : (s.writeBuf i b).lapses = s.lapses := rfl
@[simp] theorem writeBuf_inbox (s : State) (i : Nat) (b : Byte) : (s.writeBuf i b).inbox = s.inbox := rfl
@[simp] theorem writeBuf_poll (s : State) (i : Nat) (b : Byte) : (s.writeBuf i b).poll = s.poll := rfl
@[simp] theorem writeBuf_resp (s : State) (i : Nat) (b : Byte) : (s.writeBuf i b).resp = s.resp := rfl
@[simp] theorem writeBuf_trace (s : State) (i : Nat) (b : Byte) : (s.writeBuf i b).trace = s.trace := rfl

@[simp] theorem rxPop_cfg (s : State) : (s.rxPop).cfg = s.cfg := rfl
@[simp] theorem rxPop_buf (s : State) : (s.rxPop).buf = s.buf := rfl
@[simp] theorem rxPop_len (s : State) : (s.rxPop).len = s.len := rfl
@[simp] theorem rxPop_st (s : State) : (s.rxPop).st = s.st := rfl
@[simp] theorem rxPop_tLast (s : State) : (s.rxPop).tLast = s.tLast := rfl
@[simp] theorem rxPop_lastLen (s : State) : (s.rxPop).lastLen = s.lastLen := rfl
@[simp] theorem rxPop_bound (s : State) : (s.rxPop).bound = s.bound := rfl
@[simp] theorem rxPop_rxq (s : State) : (s.rxPop).rxq = s.rxq.tail := rfl
@[simp] theorem rxPop_now (s : State) : (s.rxPop).now = s.now := rfl
@[simp] theorem rxPop_lapses (s : State) : (s.rxPop).lapses = s.lapses := rfl
@[simp] theorem rxPop_inbox (s : State) : (s.rxPop).inbox = s.inbox := rfl
@[simp] theorem rxPop_poll (s : State) : (s.rxPop).poll = s.poll := rfl
@[simp] theorem rxPop_resp (s : State) : (s.rxPop).resp = s.resp := rfl
@[simp] theorem rxPop_trace (s : State) : (s.rxPop).trace = s.trace := rfl

@[simp] theorem clockTick_cfg (s : State) : (s.clockTick).cfg = s.cfg := rfl
@[simp] theorem clockTick_buf (s : State) : (s.clockTick).buf = s.buf := rfl
@[simp] theorem clockTick_len (s : State) : (s.clockTick).len = s.len := rfl
@[simp] theorem clockTick_st (s : State) : (s.clockTick).st = s.st := rfl
@[simp] theorem clockTick_tLast (s : State) : (s.clockTick).tLast = s.tLast := rfl
@[simp] theorem clockTick_lastLen (s : State) : (s.clockTick).lastLen = s.lastLen := rfl
@[simp] theorem clockTick_bound (s : State) : (s.clockTick).bound = s.bound := rfl
@[simp] theorem clockTick_rxq (s : State) : (s.clockTick).rxq = s.rxq := rfl
@[simp] theorem clockTick_now (s : State) : (s.clockTick).now = s.now + s.lapses.headD 0 := rfl
@[simp] theorem clockTick_lapses (s : State) : (s.clockTick).lapses = s.lapses.tail := rfl
@[simp] theorem clockTick_inbox (s : State) : (s.clockTick).inbox = s.inbox := rfl
@[simp] theorem clockTick_poll (s : State) : (s.clockTick).poll = s.poll := rfl
@[simp] theorem clockTick_resp (s : State) : (s.clockTick).resp = s.resp := rfl
@[simp] theorem clockTick_trace (s : State) : (s.clockTick).trace = s.trace := rfl

@[simp] theorem stamp_cfg (s : State) : (s.stamp).cfg = s.cfg := rfl
@[simp] theorem stamp_buf (s : State) : (s.stamp).buf = s.buf := rfl
@[simp] theorem stamp_len (s : State) : (s.stamp).len = s.len := rfl
@[simp] theorem stamp_st (s : State) : (s.stamp).st = s.st := rfl
@[simp] theorem stamp_tLast (s : State) : (s.stamp).tLast = s.now + s.lapses.headD 0 := rfl
@[simp] theorem stamp_lastLen (s : State) : (s.stamp).lastLen = s.lastLen := rfl
@[simp] theorem stamp_bound (s : State) : (s.stamp).bound = s.bound := rfl
@[simp] theorem stamp_rxq (s : State) : (s.stamp).rxq = s.rxq := rfl
@[simp] theorem stamp_now (s : State) : (s.stamp).now = s.now + s.lapses.headD 0 := rfl
@[simp] theorem stamp_lapses (s : State) : (s.stamp).lapses = s.lapses.tail := rfl
@[simp] theorem stamp_inbox (s : State) : (s.stamp).inbox = s.inbox := rfl
@[simp] theorem stamp_poll (s : State) : (s.stamp).poll = s.poll := rfl
@[simp] theorem stamp_resp (s : State) : (s.stamp).resp = s.resp := rfl
@[simp] theorem stamp_trace (s : State) : (s.stamp).trace = s.trace := rfl

@[simp] theorem emit_cfg (s : State) (l : Label) : (s.emit l).cfg = s.cfg := rfl
@[simp] theorem emit_buf (s : State) (l : Label) : (s.emit l).buf = s.buf := rfl
@[simp] theorem emit_len (s : State) (l : Label) : (s.emit l).len = s.len := rfl
@[simp] theorem emit_st (s : State) (l : Label) : (s.emit l).st = s.st := rfl
@[simp] theorem emit_tLast (s : State) (l : Label) : (s.emit l).tLast = s.tLast := rfl
@[simp] theorem emit_lastLen (s : State) (l : Label) : (s.emit l).lastLen = s.lastLen := rfl
@[simp] theorem emit_bound (s : State) (l : Label) : (s.emit l).bound = s.bound := rfl
@[simp] theorem emit_rxq (s : State) (l : Label) : (s.emit l).rxq = s.rxq := rfl
@[simp] theorem emit_now (s : State) (l : Label) : (s.emit l).now = s.now := rfl
@[simp] theorem emit_lapses (s : State) (l : Label) : (s.emit l).lapses = s.lapses := rfl
@[simp] theorem emit_inbox (s : State) (l : Label) : (s.emit l).inbox = s.inbox := rfl
@[simp] theorem emit_poll (s : State) (l : Label) : (s.emit l).poll = s.poll := rfl
@[simp] theorem emit_resp (s : State) (l : Label) : (s.emit l).resp = s.resp := rfl
@[simp] theorem emit_trace (s : State) (l : Label) : (s.emit l).trace = s.trace ++ [l] := rfl

@[simp] theorem beginOp_cfg (s : State) : (s.beginOp).cfg = s.cfg := rfl
@[simp] theorem beginOp_buf (s : State) : (s.beginOp).buf = s.buf := rfl
@[simp] theorem beginOp_len (s : State) : (s.beginOp).len = s.len := rfl
@[simp] theorem beginOp_st (s : State) : (s.beginOp).st = s.st := rfl
@[simp] theorem beginOp_tLast (s : State) : (s.beginOp).tLast = s.tLast := rfl
@[simp] theorem beginOp_lastLen (s : State) : (s.beginOp).lastLen = s.lastLen := rfl
@[simp] theorem beginOp_bound (s : State) : (s.beginOp).bound = s.bound := rfl
@[simp] theorem beginOp_rxq (s : State) : (s.beginOp).rxq = s.rxq := rfl
@[simp] theorem beginOp_now (s : State) : (s.beginOp).now = s.now := rfl
@[simp] theorem beginOp_lapses (s : State) : (s.beginOp).lapses = s.lapses := rfl
@[simp] theorem beginOp_inbox (s : State) : (s.beginOp).inbox = s.inbox := rfl
@[simp] theorem beginOp_poll (s : State) : (s.beginOp).poll = s.poll := rfl
@[simp] theorem beginOp_resp (s : State) : (s.beginOp).resp = none := rfl
@[simp] theorem beginOp_trace (s : State) : (s.beginOp).trace = [] := rfl

@[simp] theorem toSearching_cfg (s : State) : (s.toSearching).cfg = s.cfg := rfl
@[simp] theorem toSearching_buf (s : State) : (s.toSearching).buf = s.buf := rfl
@[simp] theorem toSearching_len (s : State) : (s.toSearching).len = 0 := rfl
@[simp] theorem toSearching_st (s : State) : (s.toSearching).st = .searchingSync := rfl
@[simp] theorem toSearching_tLast (s : State) : (s.toSearching).tLast = s.tLast := rfl
@[simp] theorem toSearching_lastLen (s : State) : (s.toSearching).lastLen = s.lastLen := rfl
@[simp] theorem toSearching_bound (s : State) : (s.toSearching).bound = s.bound := rfl
@[simp] theorem toSearching_rxq (s : State) : (s.toSearching).rxq = s.rxq := rfl
@[simp] theorem toSearching_now (s : State) : (s.toSearching).now = s.now := rfl
@[simp] theorem toSearching_lapses (s : State) : (s.toSearching).lapses = s.lapses := rfl
@[simp] theorem toSearching_inbox (s : State) : (s.toSearching).inbox = s.inbox := rfl
@[simp] theorem toSearching_poll (s : State) : (s.toSearching).poll = s.poll := rfl
@[simp] theorem toSearching_resp (s : State) : (s.toSearching).resp = s.resp := rfl
@[simp] theorem toSearching_trace (s : State) : (s.toSearching).trace = s.trace := rfl

@[simp] theorem clearRegisters_cfg (s : State) (x : Bool) : (s.clearRegisters x).cfg = s.cfg := rfl
@[simp] theorem clearRegisters_buf (s : State) (x : Bool) : (s.clearRegisters x).buf = Vector.replicate 11 0x00 := rfl
@[simp] theorem clearRegisters_len (s : State) (x : Bool) : (s.clearRegisters x).len = 0 := rfl
@[simp] theorem clearRegisters_st (s : State) (x : Bool) : (s.clearRegisters x).st = .searchingSync := rfl
@[simp] theorem clearRegisters_tLast (s : State) (x : Bool) : (s.clearRegisters x).tLast = 0 := rfl
@[simp] theorem clearRegisters_lastLen (s : State) (x : Bool) : (s.clearRegisters x).lastLen = 0 := rfl
@[simp] theorem clearRegisters_bound (s : State) (x : Bool) : (s.clearRegisters x).bound = x := rfl
@[simp] theorem clearRegisters_rxq (s : State) (x : Bool) : (s.clearRegisters x).rxq = s.rxq := rfl
@[simp] theorem clearRegisters_now (s : State) (x : Bool) : (s.clearRegisters x).now = s.now := rfl
@[simp] theorem clearRegisters_lapses (s : State) (x : Bool) : (s.clearRegisters x).lapses = s.lapses := rfl
@[simp] theorem clearRegisters_inbox (s : State) (x : Bool) : (s.clearRegisters x).inbox = s.inbox := rfl
@[simp] theorem clearRegisters_poll (s : State) (x : Bool) : (s.clearRegisters x).poll = s.poll := rfl
@[simp] theorem clearRegisters_resp (s : State) (x : Bool) : (s.clearRegisters x).resp = s.resp := rfl
@[simp] theorem clearRegisters_trace (s : State) (x : Bool) : (s.clearRegisters x).trace = s.trace := rfl

@[simp] theorem settlePhase_cfg (s : State) : (s.settlePhase).cfg = s.cfg := rfl
@[simp] theorem settlePhase_buf (s : State) : (s.settlePhase).buf = s.buf := rfl
@[simp] theorem settlePhase_len (s : State) : (s.settlePhase).len = s.len := rfl
@[simp] theorem settlePhase_st (s : State) : (s.settlePhase).st = s.st := rfl
@[simp] theorem settlePhase_tLast (s : State) : (s.settlePhase).tLast = s.tLast := rfl
@[simp] theorem settlePhase_lastLen (s : State) : (s.settlePhase).lastLen = s.lastLen := rfl
@[simp] theorem settlePhase_bound (s : State) : (s.settlePhase).bound = s.bound := rfl
@[simp] theorem settlePhase_rxq (s : State) : (s.settlePhase).rxq = s.rxq := rfl
@[simp] theorem settlePhase_now (s : State) : (s.settlePhase).now = s.now := rfl
@[simp] theorem settlePhase_lapses (s : State) : (s.settlePhase).lapses = s.lapses := rfl
@[simp] theorem settlePhase_inbox (s : State) : (s.settlePhase).inbox = s.inbox := rfl
@[simp] theorem settlePhase_poll (s : State) : (s.settlePhase).poll = s.poll.map fun p => { p with phase := .settle } := rfl
@[simp] theorem settlePhase_resp (s : State) : (s.settlePhase).resp = s.resp := rfl
@[simp] theorem settlePhase_trace (s : State) : (s.settlePhase).trace = s.trace := rfl

@[simp] theorem closePoll_cfg (s : State) (r : FrameResult) : (s.closePoll r).cfg = s.cfg := rfl
@[simp] theorem closePoll_buf (s : State) (r : FrameResult) : (s.closePoll r).buf = s.buf := rfl
@[simp] theorem closePoll_len (s : State) (r : FrameResult) : (s.closePoll r).len = s.len := rfl
@[simp] theorem closePoll_st (s : State) (r : FrameResult) : (s.closePoll r).st = s.st := rfl
@[simp] theorem closePoll_tLast (s : State) (r : FrameResult) : (s.closePoll r).tLast = s.tLast := rfl
@[simp] theorem closePoll_lastLen (s : State) (r : FrameResult) : (s.closePoll r).lastLen = s.lastLen := rfl
@[simp] theorem closePoll_bound (s : State) (r : FrameResult) : (s.closePoll r).bound = s.bound := rfl
@[simp] theorem closePoll_rxq (s : State) (r : FrameResult) : (s.closePoll r).rxq = s.rxq := rfl
@[simp] theorem closePoll_now (s : State) (r : FrameResult) : (s.closePoll r).now = s.now := rfl
@[simp] theorem closePoll_lapses (s : State) (r : FrameResult) : (s.closePoll r).lapses = s.lapses := rfl
@[simp] theorem closePoll_inbox (s : State) (r : FrameResult) : (s.closePoll r).inbox = s.inbox := rfl
@[simp] theorem closePoll_poll (s : State) (r : FrameResult) : (s.closePoll r).poll = none := rfl
@[simp] theorem closePoll_resp (s : State) (r : FrameResult) : (s.closePoll r).resp = some (.frame r) := rfl
@[simp] theorem closePoll_trace (s : State) (r : FrameResult) : (s.closePoll r).trace = s.trace := rfl

@[simp] theorem openPoll_cfg (s : State) (pid : Byte) : (s.openPoll pid).cfg = s.cfg := rfl
@[simp] theorem openPoll_buf (s : State) (pid : Byte) : (s.openPoll pid).buf = s.buf := rfl
@[simp] theorem openPoll_len (s : State) (pid : Byte) : (s.openPoll pid).len = s.len := rfl
@[simp] theorem openPoll_st (s : State) (pid : Byte) : (s.openPoll pid).st = s.st := rfl
@[simp] theorem openPoll_tLast (s : State) (pid : Byte) : (s.openPoll pid).tLast = s.tLast := rfl
@[simp] theorem openPoll_lastLen (s : State) (pid : Byte) : (s.openPoll pid).lastLen = s.lastLen := rfl
@[simp] theorem openPoll_bound (s : State) (pid : Byte) : (s.openPoll pid).bound = s.bound := rfl
@[simp] theorem openPoll_rxq (s : State) (pid : Byte) : (s.openPoll pid).rxq = s.rxq := rfl
@[simp] theorem openPoll_now (s : State) (pid : Byte) : (s.openPoll pid).now = s.now := rfl
@[simp] theorem openPoll_lapses (s : State) (pid : Byte) : (s.openPoll pid).lapses = s.lapses := rfl
@[simp] theorem openPoll_inbox (s : State) (pid : Byte) : (s.openPoll pid).inbox = s.inbox := rfl
@[simp] theorem openPoll_poll (s : State) (pid : Byte) : (s.openPoll pid).poll = some ⟨pid, .drain⟩ := rfl
@[simp] theorem openPoll_resp (s : State) (pid : Byte) : (s.openPoll pid).resp = none := rfl
@[simp] theorem openPoll_trace (s : State) (pid : Byte) : (s.openPoll pid).trace = [] := rfl

@[simp] theorem receive_cfg (s : State) (b : Byte) : (s.receive b).cfg = s.cfg := rfl
@[simp] theorem receive_buf (s : State) (b : Byte) : (s.receive b).buf = s.buf := rfl
@[simp] theorem receive_len (s : State) (b : Byte) : (s.receive b).len = s.len := rfl
@[simp] theorem receive_st (s : State) (b : Byte) : (s.receive b).st = s.st := rfl
@[simp] theorem receive_tLast (s : State) (b : Byte) : (s.receive b).tLast = s.tLast := rfl
@[simp] theorem receive_lastLen (s : State) (b : Byte) : (s.receive b).lastLen = s.lastLen := rfl
@[simp] theorem receive_bound (s : State) (b : Byte) : (s.receive b).bound = s.bound := rfl
@[simp] theorem receive_rxq (s : State) (b : Byte) : (s.receive b).rxq = s.rxq ++ [b] := rfl
@[simp] theorem receive_now (s : State) (b : Byte) : (s.receive b).now = s.now := rfl
@[simp] theorem receive_lapses (s : State) (b : Byte) : (s.receive b).lapses = s.lapses := rfl
@[simp] theorem receive_inbox (s : State) (b : Byte) : (s.receive b).inbox = s.inbox := rfl
@[simp] theorem receive_poll (s : State) (b : Byte) : (s.receive b).poll = s.poll := rfl
@[simp] theorem receive_resp (s : State) (b : Byte) : (s.receive b).resp = s.resp := rfl
@[simp] theorem receive_trace (s : State) (b : Byte) : (s.receive b).trace = s.trace := rfl

@[simp] theorem advance_cfg (s : State) (d : Time) : (s.advance d).cfg = s.cfg := rfl
@[simp] theorem advance_buf (s : State) (d : Time) : (s.advance d).buf = s.buf := rfl
@[simp] theorem advance_len (s : State) (d : Time) : (s.advance d).len = s.len := rfl
@[simp] theorem advance_st (s : State) (d : Time) : (s.advance d).st = s.st := rfl
@[simp] theorem advance_tLast (s : State) (d : Time) : (s.advance d).tLast = s.tLast := rfl
@[simp] theorem advance_lastLen (s : State) (d : Time) : (s.advance d).lastLen = s.lastLen := rfl
@[simp] theorem advance_bound (s : State) (d : Time) : (s.advance d).bound = s.bound := rfl
@[simp] theorem advance_rxq (s : State) (d : Time) : (s.advance d).rxq = s.rxq := rfl
@[simp] theorem advance_now (s : State) (d : Time) : (s.advance d).now = s.now + d := rfl
@[simp] theorem advance_lapses (s : State) (d : Time) : (s.advance d).lapses = s.lapses := rfl
@[simp] theorem advance_inbox (s : State) (d : Time) : (s.advance d).inbox = s.inbox := rfl
@[simp] theorem advance_poll (s : State) (d : Time) : (s.advance d).poll = s.poll := rfl
@[simp] theorem advance_resp (s : State) (d : Time) : (s.advance d).resp = s.resp := rfl
@[simp] theorem advance_trace (s : State) (d : Time) : (s.advance d).trace = s.trace := rfl

@[simp] theorem forceCompletion_cfg (s : State) : s.forceCompletion.cfg = s.cfg := rfl
@[simp] theorem forceCompletion_buf (s : State) : s.forceCompletion.buf = s.buf := rfl
@[simp] theorem forceCompletion_len (s : State) : s.forceCompletion.len = s.len := rfl
@[simp] theorem forceCompletion_st (s : State) : s.forceCompletion.st = .frameReady := rfl
@[simp] theorem forceCompletion_tLast (s : State) : s.forceCompletion.tLast = s.tLast := rfl
@[simp] theorem forceCompletion_lastLen (s : State) : s.forceCompletion.lastLen = s.lastLen := rfl
@[simp] theorem forceCompletion_bound (s : State) : s.forceCompletion.bound = s.bound := rfl
@[simp] theorem forceCompletion_rxq (s : State) : s.forceCompletion.rxq = s.rxq := rfl
@[simp] theorem forceCompletion_now (s : State) : s.forceCompletion.now = s.now := rfl
@[simp] theorem forceCompletion_lapses (s : State) : s.forceCompletion.lapses = s.lapses := rfl
@[simp] theorem forceCompletion_inbox (s : State) : s.forceCompletion.inbox = s.inbox := rfl
@[simp] theorem forceCompletion_poll (s : State) : s.forceCompletion.poll = s.poll := rfl
@[simp] theorem forceCompletion_resp (s : State) : s.forceCompletion.resp = s.resp := rfl
@[simp] theorem forceCompletion_trace (s : State) : s.forceCompletion.trace = if s.rxAvail = true then s.trace ++ [.overflow] else s.trace := rfl

@[simp] theorem storeByte_cfg (s : State) (b : Byte) : (s.storeByte b).cfg = s.cfg := by
  unfold storeByte; split <;> rfl
@[simp] theorem storeByte_buf (s : State) (b : Byte) : (s.storeByte b).buf = s.buf.setIfInBounds s.len.toNat b := by
  unfold storeByte; split <;> rfl
@[simp] theorem storeByte_len (s : State) (b : Byte) : (s.storeByte b).len = s.len + 1 := by
  unfold storeByte; split <;> rfl
@[simp] theorem storeByte_st (s : State) (b : Byte) : (s.storeByte b).st = if s.len + 1 = 11 then .frameReady else s.st := by
  unfold storeByte; split <;> rfl
@[simp] theorem storeByte_tLast (s : State) (b : Byte) : (s.storeByte b).tLast = s.now + s.lapses.headD 0 := by
  unfold storeByte; split <;> rfl
@[simp] theorem storeByte_lastLen (s : State) (b : Byte) : (s.storeByte b).lastLen = s.lastLen := by
  unfold storeByte; split <;> rfl
@[simp] theorem storeByte_bound (s : State) (b : Byte) : (s.storeByte b).bound = s.bound := by
  unfold storeByte; split <;> rfl
@[simp] theorem storeByte_rxq (s : State) (b : Byte) : (s.storeByte b).rxq = s.rxq := by
  unfold storeByte; split <;> rfl
@[simp] theorem storeByte_now (s : State) (b : Byte) : (s.storeByte b).now = s.now + s.lapses.headD 0 := by
  unfold storeByte; split <;> rfl
@[simp] theorem storeByte_lapses (s : State) (b : Byte) : (s.storeByte b).lapses = s.lapses.tail := by
  unfold storeByte; split <;> rfl
@[simp] theorem storeByte_inbox (s : State) (b : Byte) : (s.storeByte b).inbox = s.inbox := by
  unfold storeByte; split <;> rfl
@[simp] theorem storeByte_poll (s : State) (b : Byte) : (s.storeByte b).poll = s.poll := by
  unfold storeByte; split <;> rfl
@[simp] theorem storeByte_resp (s : State) (b : Byte) : (s.storeByte b).resp = s.resp := by
  unfold storeByte; split <;> rfl
@[simp] theorem storeByte_trace (s : State) (b : Byte) : (s.storeByte b).trace =
    if s.len + 1 = 11 ∧ s.rxAvail = true then s.trace ++ [.overflow] else s.trace := by
  unfold storeByte
  split
  · rename_i h
    simp only [h, true_and]
    rfl
  · rename_i h
    rw [if_neg fun hc => h hc.1]
    rfl

end Sys2Proof.Machine.State
end

