-- ==== Sys2Proof/Laws/Ops.lean ====
section
/-! SUPPORT. One lemma for each shared operation, saying what it can do: the selection of the steps of a POLL, the
clock samples, one byte event, and the drain loop as the transition table R114 gives it. -/

namespace Sys2Proof.Machine
open State

theorem toOption_eq_some {r : Except DecodeError Instr} {i : Instr} : r.toOption = some i ↔ r = .ok i := by
  cases r <;> simp [Except.toOption]

/-- `selects` says that decoding the instruction's encoding in the state's context gives it back. -/
theorem selects_iff_decode (s : State) (i : Instr) : s.selects i = true ↔ decode s.context (encode i) = .ok i := by
  simp [State.selects, toOption_eq_some]

/-- What the column "selected by" of R78 selects, the decoder selects. -/
theorem selects_of_Selects {s : State} {i : Instr} (hw : WellFormed i) (h : Selects s.context i) :
    s.selects i = true := by
  rw [selects_iff_decode]
  cases i with
  | init => exact Laws.EncodeDecode.init _ hw h
  | poll pid => exact Laws.EncodeDecode.poll pid _ hw h
  | lastFrame => exact Laws.EncodeDecode.lastFrame _ hw h
  | checksum n => exact Laws.EncodeDecode.checksum n _ hw h
  | validate L => exact Laws.EncodeDecode.validate L _ hw h
  | bSyncAccept b => exact Laws.EncodeDecode.bSyncAccept b _ hw h
  | bSyncDiscard b => exact Laws.EncodeDecode.bSyncDiscard b _ hw h
  | bPidReject b => exact Laws.EncodeDecode.bPidReject b _ hw h
  | bStore b => exact Laws.EncodeDecode.bStore b _ hw h
  | tBreak => exact Laws.EncodeDecode.tBreak _ hw h
  | deliver => exact Laws.EncodeDecode.deliver _ hw h
  | dropShort => exact Laws.EncodeDecode.dropShort _ hw h

/-- A byte that decodes is selected by R78, and is what the instruction is encoded as. -/
theorem Selects_of_decodeByte {ctx : Context} {b : Byte} {i : Instr} (h : decodeByte ctx b = .ok i) :
    encode i = .byte b ∧ Selects ctx i ∧ WellFormed i := by
  unfold decodeByte at h
  split at h
  · rename_i pid hp
    split at h
    · rename_i hs
      by_cases hb : b = Config.syncByte
      · rw [if_pos hb] at h
        obtain rfl := Except.ok.inj h
        exact ⟨rfl, ⟨⟨pid, hp⟩, hs, hb⟩, if_pos hb⟩
      · rw [if_neg hb] at h
        obtain rfl := Except.ok.inj h
        exact ⟨rfl, ⟨⟨pid, hp⟩, hs, hb⟩, if_neg hb⟩
    · rename_i hs
      unfold decodeFrameByte at h
      by_cases hr : ctx.len.toNat = 0 ∨ 10 < ctx.len.toNat
      · rw [if_pos hr] at h; cases h
      rw [if_neg hr] at h
      have hlen : 1 ≤ ctx.len.toNat ∧ ctx.len.toNat ≤ 10 := by omega
      by_cases h1 : ctx.len = 1 ∧ pid ≠ Config.pidWildcard
      · rw [if_pos h1] at h
        by_cases hb : b = pid
        · rw [if_pos hb] at h
          obtain rfl := Except.ok.inj h
          exact ⟨rfl, ⟨pid, hp, hs, hlen, fun hn => hn.2.2 hb⟩, rfl⟩
        · rw [if_neg hb] at h
          obtain rfl := Except.ok.inj h
          exact ⟨rfl, ⟨pid, hp, hs, h1.1, h1.2, hb⟩, rfl⟩
      · rw [if_neg h1] at h
        obtain rfl := Except.ok.inj h
        exact ⟨rfl, ⟨pid, hp, hs, hlen, fun hn => h1 ⟨hn.1, hn.2.1⟩⟩, rfl⟩
    · cases h
  · cases h

/-- An event that is selected is selected by R78. -/
theorem Selects_of_decodeEvent {ctx : Context} {i : Instr} (h : decodeEvent ctx = .ok i) :
    encode i = .event ∧ Selects ctx i ∧ WellFormed i := by
  unfold decodeEvent at h
  split at h
  · rename_i pid hp
    obtain rfl := Except.ok.inj h
    exact ⟨rfl, ⟨pid, hp⟩, rfl⟩
  · rename_i pid hp
    by_cases hs : ctx.st = .frameReady
    · rw [if_pos hs] at h
      by_cases h11 : 11 < ctx.len.toNat
      · rw [if_pos h11] at h; cases h
      rw [if_neg h11] at h
      by_cases h2 : 2 ≤ ctx.len.toNat
      · rw [if_pos h2] at h
        obtain rfl := Except.ok.inj h
        exact ⟨rfl, ⟨⟨pid, hp⟩, hs, h2, by omega⟩, rfl⟩
      · rw [if_neg h2] at h
        obtain rfl := Except.ok.inj h
        exact ⟨rfl, ⟨⟨pid, hp⟩, hs, by omega⟩, rfl⟩
    · rw [if_neg hs] at h; cases h
  · cases h

/-- For the seven steps of a POLL, `selects` is the column "selected by" of R78. -/
theorem selects_iff_Selects {s : State} {i : Instr} (hi : i.isHost = false) (hw : WellFormed i) :
    s.selects i = true ↔ Selects s.context i := by
  refine ⟨fun h => ?_, selects_of_Selects hw⟩
  rw [selects_iff_decode] at h
  cases i with
  | init | poll | lastFrame | checksum | validate => cases hi
  | bSyncAccept b | bSyncDiscard b | bPidReject b | bStore b => exact (Selects_of_decodeByte h).2.1
  | tBreak | deliver | dropShort => exact (Selects_of_decodeEvent h).2.1

/-- The step of a POLL that is selected is well formed. -/
theorem wellFormed_of_selects {s : State} {i : Instr} (hi : i.isHost = false) (h : s.selects i = true) :
    WellFormed i := by
  rw [selects_iff_decode] at h
  cases i with
  | init | poll | lastFrame | checksum | validate => cases hi
  | bSyncAccept b | bSyncDiscard b | bPidReject b | bStore b => exact (Selects_of_decodeByte h).2.2
  | tBreak | deliver | dropShort => rfl

theorem headD_eq_take_one_sum (l : List Time) : l.head?.getD 0#64 = (l.take 1).sum := by
  cases l <;> simp

theorem take_one_sum_add (l : List Time) (k : Nat) : (l.take 1).sum + ((l.drop 1).take k).sum = (l.take (k + 1)).sum := by
  cases l <;> simp

@[simp] theorem clockAfter_zero (s : State) : clockAfter s 0 = s.now := by simp [clockAfter]

theorem now_clockTick (s : State) : s.clockTick.now = clockAfter s 1 := by
  simp [clockAfter, headD_eq_take_one_sum]

theorem clockTick_now_eq (s : State) : s.now + s.lapses.headD 0 = clockAfter s 1 := now_clockTick s

theorem clockTick_eq (s : State) :
    s.clockTick = { s with now := clockAfter s 1, lapses := s.lapses.drop 1 } := by
  rw [← clockTick_now_eq]
  simp [clockTick]

/-- A write inside the buffer is a plain write of that byte. -/
theorem setIfInBounds_eq_set (v : Vector Byte 11) (i : Nat) (h : i < 11) (b : Byte) :
    v.setIfInBounds i b = v.set i b := by
  ext j hj
  simp [Vector.getElem_setIfInBounds, Vector.getElem_set]

/-- The break check sees silence exactly when the frame is in progress and the threshold is reached at its sample. -/
theorem clockTick_silent (s : State) : s.clockTick.silent = true ↔
    s.st = .accumulating ∧ s.cfg.breakThreshold.toNat ≤ (clockAfter s 1 - s.tLast).toNat := by
  rw [clockTick_eq, silent, decide_eq_true_iff]
  exact Iff.rfl

/-- T_BREAK where the silence has lasted. -/
theorem breakCheck_of_silent {s : State} (h : s.clockTick.silent = true) :
    s.breakCheck = ({ s.clockTick.settlePhase with st := .frameReady } : State).emit .breakSeen := if_pos h

/-- T_BREAK where it has not, or where no frame is in progress. -/
theorem breakCheck_of_not_silent {s : State} (h : ¬s.clockTick.silent = true) :
    s.breakCheck = s.clockTick.settlePhase := if_neg h

/-- Samples after one sample are samples of the state before it. -/
theorem clockAfter_of_ticked {s t : State} (hn : t.now = clockAfter s 1) (hl : t.lapses = s.lapses.drop 1) (k : Nat) :
    clockAfter t k = clockAfter s (k + 1) := by
  simp only [clockAfter] at *
  rw [hn, hl, BitVec.add_assoc, take_one_sum_add]

theorem ofNat_toNat_add_one {n : Len} : BitVec.ofNat 4 (n.toNat + 1) = n + 1 := by
  apply BitVec.eq_of_toNat_eq; simp

/-- What one byte does, as the row of the transition table for it (R103, R114). -/
theorem byteEvent_eq_byteRow (pid b : Byte) (s : State) (hst : s.st ≠ .frameReady)
    (hss : s.st = .searchingSync → s.len = 0)
    (hacc : s.st = .accumulating → 1 ≤ s.len.toNat ∧ s.len.toNat ≤ 10) :
    let row := byteRow pid s.st s.len.toNat b s.rxq
    byteEvent pid s b = { s with
      buf := storeAll s.buf (row.index.toList.map fun i => (i, b))
      len := BitVec.ofNat 4 row.len
      st := row.st
      tLast := row.index.elim s.tLast fun _ => clockAfter s 1
      now := row.index.elim s.now fun _ => clockAfter s 1
      lapses := row.index.elim s.lapses fun _ => s.lapses.drop 1
      trace := s.trace ++ row.label.toList } := by
  obtain ⟨cfg, buf, len, st, tLast, lastLen, bound, rxq, now, lapses, inbox, poll, resp, trace⟩ := s
  cases st with
  | frameReady => exact absurd rfl hst
  | searchingSync =>
    obtain rfl : len = 0 := hss rfl
    clear hst hss hacc
    by_cases hb : b = 0x55
    · simp [byteEvent, byteRow, hb, syncAccept, stamp, clockTick, writeBuf, storeAll, clockAfter, headD_eq_take_one_sum]
    · simp only [byteEvent, byteRow, if_neg hb, if_true]
      simp [syncDiscard, emit, storeAll]
  | accumulating =>
    have hl : 1 ≤ len.toNat ∧ len.toNat ≤ 10 := hacc rfl
    clear hst hss hacc
    by_cases hr : len = 1 ∧ pid ≠ 0x00 ∧ b ≠ pid
    · have hn : len.toNat = 1 ∧ pid ≠ 0x00 ∧ b ≠ pid := ⟨by simp [hr.1], hr.2⟩
      have hn' : len = 1 ∧ pidFilterRejects pid b = true := by simpa [pidFilterRejects] using hr
      simp only [byteEvent, byteRow, if_pos hn, if_pos hn']
      simp [pidReject, emit, toSearching, storeAll]
    · have hn : ¬(len.toNat = 1 ∧ pid ≠ 0x00 ∧ b ≠ pid) := fun h => hr ⟨BitVec.eq_of_toNat_eq h.1, h.2⟩
      have hn' : ¬(len = 1 ∧ pidFilterRejects pid b = true) := by simpa [pidFilterRejects] using hr
      simp only [byteEvent, byteRow, if_neg hn, if_neg hn']
      by_cases h9 : len.toNat ≤ 9
      · have h11 : ¬ len + 1#4 = 11#4 := by
          intro h; have := congrArg BitVec.toNat h; simp at this; omega
        simp [h9, h11, storeByte, stamp, clockTick, writeBuf, storeAll, clockAfter, headD_eq_take_one_sum,
          ofNat_toNat_add_one]
      · obtain rfl : len = 10 := BitVec.eq_of_toNat_eq (by simp; omega)
        clear hl hr hn hn' h9
        cases rxq <;>
          simp [storeByte, forceCompletion, rxAvail, stamp, clockTick, writeBuf, storeAll, clockAfter,
            headD_eq_take_one_sum]

theorem storeAll_append (buf : Vector Byte 11) (xs ys : List (Nat × Byte)) :
    storeAll buf (xs ++ ys) = storeAll (storeAll buf xs) ys := by
  induction xs generalizing buf with
  | nil => rfl
  | cons x xs ih => exact ih _

theorem byteRow_keeps_rules (pid b : Byte) (st : DecoderState) (len : Nat) (rest : List Byte) (hst : st ≠ .frameReady)
    (hacc : st = .accumulating → 1 ≤ len ∧ len ≤ 10) :
    let row := byteRow pid st len b rest
    (row.st = .searchingSync → row.len = 0) ∧ (row.st = .accumulating → 1 ≤ row.len ∧ row.len ≤ 10) ∧
    (row.st = .frameReady → row.len = 11) := by
  cases st with
  | frameReady => exact absurd rfl hst
  | searchingSync => simp only [byteRow]; split <;> simp
  | accumulating =>
    have := hacc rfl
    simp only [byteRow]; split
    · simp
    · split
      · simp
        omega
      · simp

theorem byteRow_len_le (pid b : Byte) (st : DecoderState) (len : Nat) (rest : List Byte) (hst : st ≠ .frameReady)
    (hacc : st = .accumulating → 1 ≤ len ∧ len ≤ 10) : (byteRow pid st len b rest).len ≤ 11 := by
  have h := byteRow_keeps_rules pid b st len rest hst hacc
  rcases hr : (byteRow pid st len b rest).st with _ | _ | _
  · simp [h.1 hr]
  · have := h.2.1 hr; omega
  · simp [h.2.2 hr]

/-- Phase 1 is what the transition table makes of the bytes at hand (R102, R114). -/
theorem drain_eq_drainByTable (pid : Byte) (avail : List Byte) (s : State) (hq : s.rxq = avail)
    (hss : s.st = .searchingSync → s.len = 0)
    (hacc : s.st = .accumulating → 1 ≤ s.len.toNat ∧ s.len.toNat ≤ 10) :
    let d := drainByTable pid s.st s.len.toNat avail
    drain pid avail s = { s with
      buf := storeAll s.buf d.stored
      len := BitVec.ofNat 4 d.len
      st := d.st
      tLast := if d.stored.length = 0 then s.tLast else clockAfter s d.stored.length
      rxq := d.left
      now := clockAfter s d.stored.length
      lapses := s.lapses.drop d.stored.length
      trace := s.trace ++ d.labels } := by
  induction avail generalizing s with
  | nil =>
    obtain ⟨cfg, buf, len, st, tLast, lastLen, bound, rxq, now, lapses, inbox, poll, resp, trace⟩ := s
    simp only at hq
    simp [drain, drainByTable, storeAll, hq, clockAfter]
  | cons b rest ih =>
    by_cases hst : s.st = .frameReady
    · obtain ⟨cfg, buf, len, st, tLast, lastLen, bound, rxq, now, lapses, inbox, poll, resp, trace⟩ := s
      simp only at hq hst
      simp [drain, drainByTable, storeAll, hq, hst, clockAfter]
    · have hrow := byteEvent_eq_byteRow pid b s.rxPop hst hss hacc
      have hkeep := byteRow_keeps_rules pid b s.st s.len.toNat rest hst hacc
      have hlen := byteRow_len_le pid b s.st s.len.toNat rest hst hacc
      simp only [rxPop_st, rxPop_len, rxPop_rxq, hq, List.tail_cons] at hrow
      rw [drain, if_neg hst]
      simp only [drainByTable, if_neg hst]
      generalize hr : byteRow pid s.st s.len.toNat b rest = row at hrow hkeep hlen
      generalize hs1 : byteEvent pid s.rxPop b = s1 at hrow
      have hn : (BitVec.ofNat 4 row.len).toNat = row.len := by simp; omega
      have h := ih s1 (by rw [hrow])
        (by rw [hrow]; intro hs; simp [hkeep.1 hs]) (by rw [hrow]; intro hs; simpa only [hn] using hkeep.2.1 hs)
      have hst1 : s1.st = row.st := by rw [hrow]
      have hlen1 : s1.len.toNat = row.len := by rw [hrow]; exact hn
      rw [hst1, hlen1] at h
      simp only at h
      rw [h]
      generalize drainByTable pid row.st row.len rest = d
      cases hi : row.index with
      | none =>
        have hc : ∀ k, clockAfter s1 k = clockAfter s k := by intro k; rw [hrow, hi]; rfl
        simp only [hc]
        rw [hrow]
        simp [hi, storeAll]
      | some i =>
        have hc : ∀ k, clockAfter s1 k = clockAfter s (k + 1) := by
          intro k; rw [hrow, hi]; exact clockAfter_of_ticked rfl rfl k
        simp only [hc]
        rw [hrow]
        have ht : (if d.stored.length = 0 then clockAfter s 1 else clockAfter s (d.stored.length + 1)) =
            clockAfter s (d.stored.length + 1) := by
          split
          · rename_i h0; rw [h0]
          · rfl
        have hc1 : clockAfter s.rxPop 1 = clockAfter s 1 := rfl
        simp only [hi, hc1, Option.elim_some, ht]
        simp [storeAll]
/-! The inversion of each step of a POLL: when it answers a next state, it was selected, and the state is its effect. -/

theorem execBSyncDiscard_next {b : Byte} {s t : State} (h : exec (.bSyncDiscard b) s = .next t) :
    Selects s.context (.bSyncDiscard b) ∧ t = s.syncDiscard := by
  simp only [exec, execBSyncDiscard] at h
  split at h
  · rename_i hs
    exact ⟨(selects_iff_Selects rfl (wellFormed_of_selects rfl hs)).1 hs, (Host.Outcome.next.inj h).symm⟩
  · cases h

theorem execBSyncAccept_next {b : Byte} {s t : State} (h : exec (.bSyncAccept b) s = .next t) :
    Selects s.context (.bSyncAccept b) ∧ t = s.syncAccept b := by
  simp only [exec, execBSyncAccept] at h
  split at h
  · rename_i hs
    exact ⟨(selects_iff_Selects rfl (wellFormed_of_selects rfl hs)).1 hs, (Host.Outcome.next.inj h).symm⟩
  · cases h

theorem execBPidReject_next {b : Byte} {s t : State} (h : exec (.bPidReject b) s = .next t) :
    Selects s.context (.bPidReject b) ∧ t = s.pidReject := by
  simp only [exec, execBPidReject] at h
  split at h
  · rename_i hs
    exact ⟨(selects_iff_Selects rfl rfl).1 hs, (Host.Outcome.next.inj h).symm⟩
  · cases h

theorem execBStore_next {b : Byte} {s t : State} (h : exec (.bStore b) s = .next t) :
    Selects s.context (.bStore b) ∧ t = s.storeByte b := by
  simp only [exec, execBStore] at h
  split at h
  · rename_i hs
    exact ⟨(selects_iff_Selects rfl rfl).1 hs, (Host.Outcome.next.inj h).symm⟩
  · cases h

theorem execTBreak_next {s t : State} (h : exec .tBreak s = .next t) :
    Selects s.context .tBreak ∧ s.drainEnded = true ∧ t = s.breakCheck := by
  simp only [exec, execTBreak] at h
  split at h
  · rename_i hs
    exact ⟨(selects_iff_Selects rfl rfl).1 hs.1, hs.2, (Host.Outcome.next.inj h).symm⟩
  · cases h

theorem execDeliver_next {s t : State} (h : exec .deliver s = .next t) :
    Selects s.context .deliver ∧ t = s.deliver := by
  simp only [exec, execDeliver] at h
  split at h
  · rename_i hs
    exact ⟨(selects_iff_Selects rfl rfl).1 hs, (Host.Outcome.next.inj h).symm⟩
  · cases h

theorem execDropShort_next {s t : State} (h : exec .dropShort s = .next t) :
    Selects s.context .dropShort ∧ t = s.dropShort := by
  simp only [exec, execDropShort] at h
  split at h
  · rename_i hs
    exact ⟨(selects_iff_Selects rfl rfl).1 hs, (Host.Outcome.next.inj h).symm⟩
  · cases h

/-- POLL answers a next state only when bound and in a register state of the rules, and then its three phases. -/
theorem execPoll_next {pid : Byte} {s t : State} (h : exec (.poll pid) s = .next t) :
    s.bound = true ∧ RegistersInRules s ∧ t = s.pollPhases pid := by
  simp only [exec, execPoll] at h
  split at h
  · cases h
  · split at h
    · cases h
    · rename_i hb hr
      simp only [Bool.not_eq_false, inRules, decide_eq_true_eq] at hb hr
      exact ⟨hb, hr, (Host.Outcome.next.inj h).symm⟩

/-- From every bound state of the rules POLL answers its three phases. -/
theorem execPoll_eq {pid : Byte} {s : State} (hb : s.bound = true) (hr : RegistersInRules s) :
    exec (.poll pid) s = .next (s.pollPhases pid) := by
  have hi : s.inRules = true := decide_eq_true hr
  simp [exec, execPoll, hb, hi]

end Sys2Proof.Machine
end

