-- ==== Sys2Proof/Laws/Fetch.lean ====
section
/-! SUPPORT. What a step can be: one lemma for the steps inside a POLL, one for the inputs between operations. -/

namespace Sys2Proof.Machine
open State

@[simp] theorem perform_run (i : Instr) (t : State) : perform (.run i t) = exec i t := rfl
@[simp] theorem perform_quiet (t : State) : perform (.quiet t) = .next t := rfl
@[simp] theorem perform_stop (r : Refusal) : perform (.stop r) = .refused r := rfl

/-- What decoding leads to. -/
theorem fetchedOf_cases (s t : State) (e : Encoding) :
    (∃ i, decode s.context e = .ok i ∧ fetchedOf s t e = .run i t) ∨
    (∃ r, decode s.context e = .error r ∧ fetchedOf s t e = .stop (refusalOf r)) := by
  unfold fetchedOf
  cases h : decode s.context e with
  | ok i => exact .inl ⟨i, rfl, rfl⟩
  | error r => exact .inr ⟨r, rfl, rfl⟩

/-- Inside a POLL: a byte is popped and its event run, or the break check or the completion is run, or the POLL
returns, or nothing is decoded (a register state the rules never produce). -/
theorem fetch_inPoll {s : State} {p : Poll} (hp : s.poll = some p) :
    (∃ b rest e, p.phase = .drain ∧ s.st ≠ .frameReady ∧ s.rxq = b :: rest ∧ e = Encoding.byte b ∧
      fetch s = fetchedOf s s.rxPop e) ∨
    (((p.phase = .drain ∧ s.drainEnded = true) ∨ (p.phase = .settle ∧ s.st = .frameReady)) ∧
      fetch s = fetchedOf s s .event) ∨
    (p.phase = .settle ∧ s.st ≠ .frameReady ∧ fetch s = .quiet (s.closePoll .incomplete)) := by
  unfold fetch
  rw [hp]
  simp only [fetchPollStep]
  rcases hph : p.phase with _ | _
  · by_cases hs : s.st = .frameReady
    · simp [hs, drainEnded]
    · rcases hq : s.rxq with _ | ⟨b, rest⟩
      · simp [hs, drainEnded, rxAvail, hq]
      · simp [hs]
  · by_cases hs : s.st = .frameReady
    · simp [hs]
    · simp [hs]

/-- A step inside a POLL that answers a next state runs one of the seven steps, in the state or after one byte has been
popped from it, or it is the plain return of the POLL. -/
theorem step_inPoll {s t : State} (hp : s.poll ≠ none) (h : step s = .next t) :
    (∃ i s', i.isHost = false ∧ Selects s.context i ∧ WellFormed i ∧ (s' = s ∨ s' = s.rxPop) ∧ exec i s' = .next t) ∨
    (s.st ≠ .frameReady ∧ t = s.closePoll .incomplete) := by
  obtain ⟨p, hp⟩ := Option.ne_none_iff_exists'.1 hp
  unfold step at h
  rcases fetch_inPoll hp with ⟨b, rest, e, -, -, -, rfl, hf⟩ | ⟨-, hf⟩ | ⟨-, hs, hf⟩
  · rw [hf] at h
    rcases fetchedOf_cases s s.rxPop (.byte b) with ⟨i, hd, hf⟩ | ⟨r, -, hf⟩
    · rw [hf] at h
      obtain ⟨he, hsel, hw⟩ := Selects_of_decodeByte hd
      exact .inl ⟨i, _, (by cases i <;> first | rfl | cases he), hsel, hw, .inr rfl, h⟩
    · rw [hf] at h; cases h
  · rw [hf] at h
    rcases fetchedOf_cases s s .event with ⟨i, hd, hf⟩ | ⟨r, -, hf⟩
    · rw [hf] at h
      obtain ⟨he, hsel, hw⟩ := Selects_of_decodeEvent hd
      exact .inl ⟨i, _, (by cases i <;> first | rfl | cases he), hsel, hw, .inl rfl, h⟩
    · rw [hf] at h; cases h
  · rw [hf] at h
    exact .inr ⟨hs, (Host.Outcome.next.inj h).symm⟩

/-- A step between operations that answers a next state runs the host's operation whose word came next, or takes an
input of the environment or the reset input, or finds none and changes nothing. -/
theorem step_between {s t : State} (hp : s.poll = none) (h : step s = .next t) :
    (∃ w rest i, s.inbox = .cmd w :: rest ∧ decodeCmd w = .ok i ∧ exec i { s with inbox := rest } = .next t) ∨
    (∃ b rest, s.inbox = .rx b :: rest ∧ t = { s with inbox := rest }.receive b) ∨
    (∃ d rest, s.inbox = .tick d :: rest ∧ t = { s with inbox := rest }.advance d) ∨
    (∃ rest, s.inbox = .reset :: rest ∧ t = { s with inbox := rest }.resetBlock) ∨
    (s.inbox = [] ∧ t = s) := by
  unfold step fetch at h
  rw [hp] at h
  simp only [fetchInput] at h
  rcases hi : s.inbox with _ | ⟨w | b | d | _, rest⟩ <;> rw [hi] at h <;> simp only at h
  · exact .inr (.inr (.inr (.inr ⟨rfl, (Host.Outcome.next.inj h).symm⟩)))
  · rcases fetchedOf_cases s { s with inbox := rest } (.cmd w) with ⟨i, hd, hf⟩ | ⟨r, -, hf⟩
    · rw [hf] at h
      exact .inl ⟨w, rest, i, rfl, hd, h⟩
    · rw [hf] at h; cases h
  · exact .inr (.inl ⟨b, rest, rfl, (Host.Outcome.next.inj h).symm⟩)
  · exact .inr (.inr (.inl ⟨d, rest, rfl, (Host.Outcome.next.inj h).symm⟩))
  · exact .inr (.inr (.inr (.inl ⟨rest, rfl, (Host.Outcome.next.inj h).symm⟩)))

/-- A command word decodes to an operation of the host. -/
theorem isHost_of_decodeCmd {w : Cmd} {i : Instr} (h : decodeCmd w = .ok i) : i.isHost = true := by
  unfold decodeCmd at h
  split at h
  · obtain rfl := Except.ok.inj h; rfl
  · obtain rfl := Except.ok.inj h; rfl
  · obtain rfl := Except.ok.inj h; rfl
  · unfold nibbleOperand at h
    split at h
    · obtain rfl := Except.ok.inj h; rfl
    · cases h
  · unfold nibbleOperand at h
    split at h
    · obtain rfl := Except.ok.inj h; rfl
    · cases h
  · cases h

end Sys2Proof.Machine
end

