-- ==== Sys2Proof/Laws/Invariant.lean ====
section
/-! SUPPORT. What the invariant rests on, and what the readers leave alone. -/

namespace Sys2Proof.Machine
open State

/-- The invariant keeps the registers in a state the rules speak of. -/
theorem Inv.inRules {s : State} (h : Inv s) : RegistersInRules s := by
  refine ⟨?_, h.accumulating⟩
  rcases hs : s.st with _ | _ | _
  · rw [h.searching hs]; decide
  · have := h.accumulating hs; omega
  · exact (h.ready hs).2

/-- The invariant reads the parameters, the registers and the POLL in progress, and nothing else. -/
theorem Inv.congr {s t : State} (h : Inv s) (hc : t.cfg = s.cfg) (hr : SameRegisters s t) (hp : t.poll = s.poll) :
    Inv t := by
  obtain ⟨hb, hl, hs, htl, hll, hbd⟩ := hr
  constructor
  · rw [hc]; exact h.legal
  · rw [hs, hl]; exact h.searching
  · rw [hs, hl]; exact h.accumulating
  · rw [hs, hl]; exact h.ready
  · rw [hs, hp]; exact h.readyInPoll
  · rw [hl, readBuf, hb]; exact h.sync
  · rw [hll]; exact h.lastLen
  · rw [hbd, hb, hl, htl, hll]; exact h.unbound
  · rw [hp, hbd]; exact h.pollBound

/-- Between operations the registers are in a state the rules speak of. -/
theorem inRules_of_between {s : State} (h : BetweenOperations s) : RegistersInRules s := by
  refine ⟨?_, h.2.1.1⟩
  rcases hs : s.st with _ | _ | _
  · rw [h.1.1 hs]; decide
  · have := h.2.1.1 hs; omega
  · exact absurd hs h.2.2.1

/-- LASTFRAME, CHECKSUM and VALIDATE write nothing but what they hand out (R58, R164). -/
theorem reader_next {i : Instr} {s t : State} (hi : i = .lastFrame ∨ (∃ n, i = .checksum n) ∨ ∃ L, i = .validate L)
    (h : exec i s = .next t) : ∃ r l, t = { s with resp := r, trace := l } := by
  rcases hi with rfl | ⟨n, rfl⟩ | ⟨L, rfl⟩
  · exact ⟨_, _, (Host.Outcome.next.inj h).symm⟩
  · simp only [exec, execChecksum] at h
    split at h
    · exact ⟨_, _, (Host.Outcome.next.inj h).symm⟩
    · cases h
  · simp only [exec, execValidate] at h
    split at h
    · have h := Host.Outcome.next.inj h
      split at h <;> exact ⟨_, _, h.symm⟩
    · cases h

end Sys2Proof.Machine
end

