-- ==== Sys2Proof/Laws/Poll.lean ====
section
/-! SUPPORT. A POLL whole and in steps: the state at the end of phase 1 as the transition table gives it, and the steps a
POLL in progress takes. -/

namespace Sys2Proof.Machine
open State

/-- Clock samples taken from a state that has already taken some. -/
theorem clockAfter_of_dropped {s t : State} {k : Nat} (hn : t.now = clockAfter s k)
    (hl : t.lapses = s.lapses.drop k) (j : Nat) : clockAfter t j = clockAfter s (k + j) := by
  simp only [clockAfter] at *
  rw [hn, hl, BitVec.add_assoc, List.take_add, List.sum_append]

/-- Phase 1 leads from a register state of the rules to one, with `len = 11` where the eleventh byte came, and stops
early only then (R102, R109, R118). -/
theorem drainByTable_rules (pid : Byte) (avail : List Byte) (st : DecoderState) (len : Nat)
    (hss : st = .searchingSync → len = 0) (hacc : st = .accumulating → 1 ≤ len ∧ len ≤ 10) (hfr : len ≤ 11) :
    let d := drainByTable pid st len avail
    (d.st = .searchingSync → d.len = 0) ∧ (d.st = .accumulating → 1 ≤ d.len ∧ d.len ≤ 10) ∧ d.len ≤ 11 ∧
    (d.st = .frameReady → st ≠ .frameReady → d.len = 11) ∧ (d.left ≠ [] → d.st = .frameReady) := by
  induction avail generalizing st len with
  | nil => exact ⟨hss, hacc, hfr, fun h h' => absurd h h', fun h => absurd rfl h⟩
  | cons b rest ih =>
    by_cases hst : st = .frameReady
    · subst hst; simp [drainByTable, hfr]
    · have hk := byteRow_keeps_rules pid b st len rest hst hacc
      have hl := byteRow_len_le pid b st len rest hst hacc
      have := ih _ _ hk.1 hk.2.1 hl
      simp only [drainByTable, if_neg hst]
      refine ⟨this.1, this.2.1, this.2.2.1, ?_, this.2.2.2.2⟩
      intro h _
      by_cases hr : (byteRow pid st len b rest).st = .frameReady
      · generalize byteRow pid st len b rest = row at *
        obtain ⟨rst, rl, ri, rlab⟩ := row
        simp only at hr hk
        subst hr
        have : ∀ l, (drainByTable pid .frameReady rl l).len = rl := by intro l; cases l <;> simp [drainByTable]
        rw [this]; exact hk.2.2 rfl
      · exact this.2.2.2.1 h hr

/-- A POLL at the end of phase 1, as the transition table gives it. -/
def drainedState (s : State) (pid : Byte) (d : Drained) : State := { s.openPoll pid with
      buf := storeAll s.buf d.stored
      len := BitVec.ofNat 4 d.len
      st := d.st
      tLast := tLastByTable s d
      rxq := d.left
      now := clockAfter s d.stored.length
      lapses := s.lapses.drop d.stored.length
      trace := d.labels }

/-- Phase 1 of a POLL from a state of the rules is the transition table (R102, R114). -/
theorem drain_opened (s : State) (pid : Byte) (hr : RegistersInRules s) (hss : s.st = .searchingSync → s.len = 0) :
    drain pid s.rxq (s.openPoll pid) = drainedState s pid (drainByTable pid s.st s.len.toNat s.rxq) :=
  drain_eq_drainByTable pid s.rxq (s.openPoll pid) rfl hss hr.2

/-- Phases 2 and 3 of a POLL from the end of phase 1 (R101, R110 to R112). -/
theorem finish_drained (s : State) (pid : Byte) (d : Drained) (hlen : d.len ≤ 11) :
    (drainedState s pid d).breakCheck.settle = finishByTable s d := by
  have hn : (BitVec.ofNat 4 d.len).toNat = d.len := by simp; omega
  have hc1 : clockAfter (drainedState s pid d) 1 = clockAfter s (d.stored.length + 1) :=
    clockAfter_of_dropped rfl rfl 1
  have hsil : (drainedState s pid d).clockTick.silent = firesByTable s d := by
    rw [Bool.eq_iff_iff, clockTick_silent, hc1, firesByTable, decide_eq_true_iff]; rfl
  cases hf : firesByTable s d
  · rw [breakCheck_of_not_silent (by rw [hsil, hf]; decide), clockTick_eq, hc1]
    by_cases hfr : d.st = .frameReady
    · have hrd : readyByTable s d = true := by simp [readyByTable, hfr]
      by_cases h2 : 2 ≤ d.len
      · simp [drainedState, finishByTable, hrd, hf, settle, settlePhase, deliver, closePoll, toSearching, openPoll,
          beginOp, hn, h2, hfr]
        omega
      · simp [drainedState, finishByTable, hrd, hf, settle, settlePhase, emit, dropShort, closePoll, toSearching, openPoll,
          beginOp, hn, h2, hfr, show d.len < 2 by omega]
    · have hrd : readyByTable s d = false := by simp [readyByTable, hfr, hf]
      simp [drainedState, finishByTable, hrd, hf, settle, settlePhase, closePoll, openPoll, beginOp, hfr]
  · have hrd : readyByTable s d = true := by simp [readyByTable, hf]
    rw [breakCheck_of_silent (by rw [hsil, hf]), clockTick_eq, hc1]
    by_cases h2 : 2 ≤ d.len
    · simp [drainedState, finishByTable, hrd, hf, settle, settlePhase, emit, deliver, closePoll, toSearching, openPoll,
        beginOp, hn, h2]
      omega
    · simp [drainedState, finishByTable, hrd, hf, settle, settlePhase, emit, dropShort, closePoll, toSearching, openPoll,
        beginOp, hn, h2, show d.len < 2 by omega]

/-- A byte that is due is what `byteEvent` does, by the arm the decoder selects. -/
theorem step_byte {s : State} {pid b : Byte} {rest : List Byte} (hp : s.poll = some ⟨pid, .drain⟩)
    (hst : s.st ≠ .frameReady) (hq : s.rxq = b :: rest) (hr : RegistersInRules s) :
    step s = .next (byteEvent pid s.rxPop b) := by
  have go : ∀ i, encode i = .byte b → WellFormed i → Selects s.context i → step s = exec i s.rxPop := by
    intro i he hw hs
    have := (selects_iff_decode s i).1 (selects_of_Selects hw hs)
    rw [he] at this
    simp [step, fetch, hp, fetchPollStep, hst, hq, fetchedOf, this]
  rcases hs : s.st with _ | _ | _
  · by_cases hb : b = 0x55
    · have hsel : Selects s.context (.bSyncAccept b) := ⟨⟨pid, hp⟩, hs, hb⟩
      rw [go (.bSyncAccept b) rfl (if_pos hb) hsel]
      have h := selects_of_Selects (s := s.rxPop) (i := .bSyncAccept b) (if_pos hb) hsel
      simp only [exec, execBSyncAccept, h, if_true, byteEvent, rxPop_st, hs, if_pos hb]
    · have hsel : Selects s.context (.bSyncDiscard b) := ⟨⟨pid, hp⟩, hs, hb⟩
      rw [go (.bSyncDiscard b) rfl (if_neg hb) hsel]
      have h := selects_of_Selects (s := s.rxPop) (i := .bSyncDiscard b) (if_neg hb) hsel
      simp only [exec, execBSyncDiscard, h, if_true, byteEvent, rxPop_st, hs, if_neg hb]
  · by_cases hc : s.len = 1 ∧ pid ≠ 0x00 ∧ b ≠ pid
    · have hsel : Selects s.context (.bPidReject b) := ⟨pid, hp, hs, hc⟩
      rw [go (.bPidReject b) rfl rfl hsel]
      have h := selects_of_Selects (s := s.rxPop) (i := .bPidReject b) rfl hsel
      have hc' : s.len = 1 ∧ pidFilterRejects pid b = true := ⟨hc.1, decide_eq_true hc.2⟩
      have e : byteEvent pid s.rxPop b = s.rxPop.pidReject := by
        rw [byteEvent, rxPop_st, hs, if_neg (by decide), rxPop_len, if_pos hc']
      rw [e]; simp only [exec, execBPidReject, h, if_true]
    · have hsel : Selects s.context (.bStore b) := ⟨pid, hp, hs, hr.2 hs, hc⟩
      rw [go (.bStore b) rfl rfl hsel]
      have h := selects_of_Selects (s := s.rxPop) (i := .bStore b) rfl hsel
      have hc' : ¬(s.len = 1 ∧ pidFilterRejects pid b = true) := fun h => hc ⟨h.1, of_decide_eq_true h.2⟩
      have e : byteEvent pid s.rxPop b = s.rxPop.storeByte b := by
        rw [byteEvent, rxPop_st, hs, if_neg (by decide), rxPop_len, if_neg hc']
      rw [e]; simp only [exec, execBStore, h, if_true]
  · exact absurd hs hst

@[simp] theorem byteEvent_poll (pid b : Byte) (s : State) : (byteEvent pid s b).poll = s.poll := by
  unfold byteEvent; split
  · split <;> simp [syncAccept, syncDiscard]
  · split <;> simp [pidReject]

@[simp] theorem byteEvent_rxq (pid b : Byte) (s : State) : (byteEvent pid s b).rxq = s.rxq := by
  unfold byteEvent; split
  · split <;> simp [syncAccept, syncDiscard]
  · split <;> simp [pidReject]

/-- A byte event leads from a register state of the rules to one. -/
theorem byteEvent_rules {pid b : Byte} {s : State} (hst : s.st ≠ .frameReady) (hr : RegistersInRules s) :
    RegistersInRules (byteEvent pid s b) := by
  unfold byteEvent
  split
  · split
    · simp [syncAccept, RegistersInRules]
    · simpa [syncDiscard, RegistersInRules] using hr
  · have hs : s.st = .accumulating := by rcases h : s.st with _|_|_ <;> simp_all
    have hl := hr.2 hs
    split
    · simp [pidReject, RegistersInRules]
    · have : (s.len + 1).toNat = s.len.toNat + 1 := by rw [BitVec.toNat_add]; simp; omega
      have e : (s.len + 1 = 11) ↔ s.len.toNat = 10 := by
        rw [← BitVec.toNat_inj, this]; simp
      simp only [storeByte_len, storeByte_st, RegistersInRules, this]
      refine ⟨by omega, ?_⟩
      by_cases h11 : s.len + 1 = 11
      · rw [if_pos h11]; intro h; cases h
      · rw [if_neg h11]; intro _; rw [e] at h11; omega

/-- A step of the machine is a step of a run of it. -/
theorem run_of_core_step {M : Host.Core} {s t : M.State} (h : M.step s = .next t) (k : Nat) :
    M.run (k + 1) s = M.run k t := by
  rw [Host.Core.run, h]

theorem run_of_step {s t : State} (h : step s = .next t) (k : Nat) :
    Host.Core.run core (k + 1) s = Host.Core.run core k t :=
  run_of_core_step (M := core) h k

/-- Phase 1 in steps: at most one for each byte at hand. -/
theorem run_drain (pid : Byte) (avail : List Byte) (s : State) (hp : s.poll = some ⟨pid, .drain⟩)
    (hq : s.rxq = avail) (hr : RegistersInRules s) :
    ∃ k, k ≤ avail.length ∧ (∀ n, Host.Core.run core (k + n) s = Host.Core.run core n (drain pid avail s)) ∧
      (drain pid avail s).poll = s.poll ∧ RegistersInRules (drain pid avail s) ∧
      ((drain pid avail s).st = .frameReady ∨ (drain pid avail s).rxq = []) := by
  induction avail generalizing s with
  | nil => exact ⟨0, le_rfl, fun n => by rw [Nat.zero_add]; rfl, rfl, hr, .inr hq⟩
  | cons b rest ih =>
    by_cases hst : s.st = .frameReady
    · rw [drain, if_pos hst]
      exact ⟨0, by omega, fun n => by rw [Nat.zero_add], rfl, hr, .inl hst⟩
    · obtain ⟨k, hk, h1, h2, h3, h4⟩ := ih (byteEvent pid s.rxPop b) (by rw [byteEvent_poll]; exact hp)
        (by rw [byteEvent_rxq]; simp [hq]) (byteEvent_rules hst hr)
      refine ⟨k + 1, by simp; omega, fun n => ?_, ?_, ?_, ?_⟩
      · rw [drain, if_neg hst, ← h1, show k + 1 + n = (k + n) + 1 by omega]
        exact run_of_step (step_byte hp hst hq hr) _
      · rw [drain, if_neg hst, h2, byteEvent_poll]; rfl
      · rw [drain, if_neg hst]; exact h3
      · rw [drain, if_neg hst]; exact h4

/-- Past phase 1 a step is the break check. -/
theorem step_break {s : State} {pid : Byte} (hp : s.poll = some ⟨pid, .drain⟩)
    (hd : s.st = .frameReady ∨ s.rxq = []) : step s = .next s.breakCheck := by
  have h := selects_of_Selects (s := s) (i := .tBreak) rfl ⟨pid, hp⟩
  have hde : s.drainEnded = true := by
    rcases hd with hd | hd <;> simp [drainEnded, hd, rxAvail]
  have hd' : decode s.context .event = .ok .tBreak := (selects_iff_decode s .tBreak).1 h
  have he : exec .tBreak s = .next s.breakCheck := by simp [exec, execTBreak, h, hde]
  by_cases hst : s.st = .frameReady
  · simp [step, fetch, hp, fetchPollStep, hst, fetchedOf, hd', he]
  · have hq : s.rxq = [] := by tauto
    simp [step, fetch, hp, fetchPollStep, hst, hq, fetchedOf, hd', he]

/-- Past the break check a step is phase 3. -/
theorem step_settle {s : State} {pid : Byte} (hp : s.poll = some ⟨pid, .settle⟩) (hr : RegistersInRules s) :
    step s = .next s.settle := by
  by_cases hst : s.st = .frameReady
  · by_cases h2 : 2 ≤ s.len.toNat
    · have h := selects_of_Selects (s := s) (i := .deliver) rfl ⟨⟨pid, hp⟩, hst, h2, hr.1⟩
      have hd' : decode s.context .event = .ok .deliver := (selects_iff_decode s .deliver).1 h
      simp [step, fetch, hp, fetchPollStep, hst, fetchedOf, hd', exec, execDeliver, h, settle, h2]
    · have h := selects_of_Selects (s := s) (i := .dropShort) rfl
        ⟨⟨pid, hp⟩, hst, by show s.len.toNat < 2; omega⟩
      have hd' : decode s.context .event = .ok .dropShort := (selects_iff_decode s .dropShort).1 h
      simp [step, fetch, hp, fetchPollStep, hst, fetchedOf, hd', exec, execDropShort, h, settle, h2]
  · simp [step, fetch, hp, fetchPollStep, hst, settle]

/-- What the byte events leave alone. -/
theorem byteEvent_frame (pid b : Byte) (s : State) : (byteEvent pid s b).cfg = s.cfg ∧
    (byteEvent pid s b).bound = s.bound ∧ (byteEvent pid s b).lastLen = s.lastLen ∧
    (byteEvent pid s b).inbox = s.inbox := by
  unfold byteEvent
  split
  · split <;> simp [syncAccept, syncDiscard]
  · split <;> simp [pidReject]

/-- What phase 1 leaves alone. -/
theorem drain_frame (pid : Byte) (avail : List Byte) (s : State) : (drain pid avail s).cfg = s.cfg ∧
    (drain pid avail s).bound = s.bound ∧ (drain pid avail s).lastLen = s.lastLen ∧
    (drain pid avail s).inbox = s.inbox := by
  induction avail generalizing s with
  | nil => exact ⟨rfl, rfl, rfl, rfl⟩
  | cons b avail ih =>
    rw [drain]
    split
    · exact ⟨rfl, rfl, rfl, rfl⟩
    · obtain ⟨h1, h2, h3, h4⟩ := ih (byteEvent pid s.rxPop b)
      obtain ⟨g1, g2, g3, g4⟩ := byteEvent_frame pid b s.rxPop
      exact ⟨h1.trans g1, h2.trans g2, h3.trans g3, h4.trans g4⟩

/-- What the break check leaves alone (R110). -/
theorem breakCheck_frame (s : State) : s.breakCheck.cfg = s.cfg ∧ s.breakCheck.buf = s.buf ∧
    s.breakCheck.len = s.len ∧ s.breakCheck.tLast = s.tLast ∧ s.breakCheck.lastLen = s.lastLen ∧
    s.breakCheck.bound = s.bound ∧ s.breakCheck.rxq = s.rxq ∧ s.breakCheck.inbox = s.inbox := by
  unfold breakCheck
  split <;> simp

/-- What phase 3 leaves alone, and the only way it writes `last_len`: to the length it hands out (R111, R112, R24). -/
theorem settle_frame (s : State) : s.settle.cfg = s.cfg ∧ s.settle.buf = s.buf ∧ s.settle.tLast = s.tLast ∧
    s.settle.bound = s.bound ∧ s.settle.rxq = s.rxq ∧ s.settle.inbox = s.inbox ∧ s.settle.poll = none ∧
    (s.settle.lastLen = s.lastLen ∨ s.st = .frameReady ∧ s.settle.lastLen = s.len ∧ 2 ≤ s.len.toNat ∧
      s.settle.resp = some (.frame (.complete s.len))) := by
  unfold settle
  split
  · split
    · rename_i h2
      exact ⟨rfl, rfl, rfl, rfl, rfl, rfl, rfl, .inr ⟨‹_›, rfl, h2, rfl⟩⟩
    · simp [dropShort]
  · simp

/-- Phase 1 leads from a register state of the rules to one. -/
theorem drain_rules (pid : Byte) (avail : List Byte) {s : State} (hr : RegistersInRules s) :
    RegistersInRules (drain pid avail s) := by
  induction avail generalizing s with
  | nil => exact hr
  | cons b avail ih =>
    rw [drain]
    split
    · exact hr
    · exact ih (byteEvent_rules ‹_› hr)

/-- What a whole POLL leaves alone, and the only way it writes `last_len`: to the length, 2 to 11, it hands out. -/
theorem pollPhases_frame {s : State} (pid : Byte) (hr : RegistersInRules s) : (s.pollPhases pid).cfg = s.cfg ∧
    (s.pollPhases pid).bound = s.bound ∧ (s.pollPhases pid).inbox = s.inbox ∧ (s.pollPhases pid).poll = none ∧
    ((s.pollPhases pid).lastLen = s.lastLen ∨
      (s.pollPhases pid).resp = some (.frame (.complete (s.pollPhases pid).lastLen)) ∧
      2 ≤ (s.pollPhases pid).lastLen.toNat ∧ (s.pollPhases pid).lastLen.toNat ≤ 11) := by
  unfold pollPhases
  have hlen : (drain pid s.rxq (s.openPoll pid)).len.toNat ≤ 11 :=
    (drain_rules pid s.rxq (s := s.openPoll pid) hr).1
  obtain ⟨d1, d2, d3, d4⟩ := drain_frame pid s.rxq (s.openPoll pid)
  obtain ⟨b1, -, b3, -, b5, b6, -, b8⟩ := breakCheck_frame (drain pid s.rxq (s.openPoll pid))
  obtain ⟨c1, -, -, c4, -, c6, c7, c8⟩ := settle_frame (drain pid s.rxq (s.openPoll pid)).breakCheck
  refine ⟨(c1.trans b1).trans d1, (c4.trans b6).trans d2, (c6.trans b8).trans d4, c7, ?_⟩
  rcases c8 with c8 | ⟨-, hl, h2, hresp⟩
  · exact .inl ((c8.trans b5).trans d3)
  · rw [← b3] at hlen
    rw [← hl] at hresp h2 hlen
    exact .inr ⟨hresp, h2, hlen⟩

/-- Inside a POLL, from a register state of the rules, a step goes on. -/
theorem step_inPoll_goesOn {s : State} (hp : s.poll ≠ none) (hr : RegistersInRules s) : ∃ t, step s = .next t := by
  obtain ⟨⟨pid, _ | _⟩, hp⟩ := Option.ne_none_iff_exists'.1 hp
  · by_cases hs : s.st = .frameReady
    · exact ⟨_, step_break hp (.inl hs)⟩
    · rcases hq : s.rxq with _ | ⟨b, rest⟩
      · exact ⟨_, step_break hp (.inr hq)⟩
      · exact ⟨_, step_byte hp hs hq hr⟩
  · exact ⟨_, step_settle hp hr⟩

end Sys2Proof.Machine
end

