-- ==== Sys2Proof/Laws/Table.lean ====
section
/-! SUPPORT. The transition table over runs of bytes: one row at a time, a run that is appended, what is stored where. -/

namespace Sys2Proof.Machine
open State

/-! The rows of R114 whose event is a byte. -/

theorem byteRow_sync (pid : Byte) (len : Nat) (rest : List Byte) :
    byteRow pid .searchingSync len 0x55 rest = ⟨.accumulating, 1, some 0, none⟩ := rfl

theorem byteRow_discard (pid : Byte) (len : Nat) {b : Byte} (rest : List Byte) (h : b ≠ 0x55) :
    byteRow pid .searchingSync len b rest = ⟨.searchingSync, 0, none, some .syncMismatch⟩ := if_neg h

theorem byteRow_reject {pid b : Byte} {len : Nat} (rest : List Byte) (h : len = 1 ∧ pid ≠ 0x00 ∧ b ≠ pid) :
    byteRow pid .accumulating len b rest = ⟨.searchingSync, 0, none, some .pidMismatch⟩ := if_pos h

theorem byteRow_store {pid b : Byte} {len : Nat} (rest : List Byte) (h : ¬(len = 1 ∧ pid ≠ 0x00 ∧ b ≠ pid))
    (h9 : len ≤ 9) : byteRow pid .accumulating len b rest = ⟨.accumulating, len + 1, some len, none⟩ := (if_neg h).trans (if_pos h9)

theorem byteRow_eleventh {pid b : Byte} {len : Nat} (rest : List Byte) (h9 : ¬len ≤ 9) :
    byteRow pid .accumulating len b rest =
      ⟨.frameReady, 11, some 10, if rest = [] then none else some .overflow⟩ :=
  (if_neg (by omega)).trans (if_neg h9)

/-- One byte by its row. -/
theorem drainByTable_cons {pid b : Byte} {st : DecoderState} {len : Nat} {row : ByteRow} {rest : List Byte}
    (hst : st ≠ .frameReady) (h : byteRow pid st len b rest = row) :
    drainByTable pid st len (b :: rest) =
      let d := drainByTable pid row.st row.len rest
      { d with
        stored := (row.index.toList.map fun i => (i, b)) ++ d.stored
        labels := row.label.toList ++ d.labels } := by
  subst h
  simp only [drainByTable, if_neg hst]

/-- A ready frame takes no byte (R102). -/
theorem drainByTable_ready (pid : Byte) (len : Nat) (avail : List Byte) :
    drainByTable pid .frameReady len avail = ⟨.frameReady, len, [], [], avail⟩ := by
  cases avail <;> rfl

/-- Past the PID, bytes that fit are stored one after another (R108). -/
theorem drainByTable_append (pid : Byte) (l rest : List Byte) (len : Nat) (h2 : 2 ≤ len) (h10 : len + l.length ≤ 10) :
    drainByTable pid .accumulating len (l ++ rest) =
      let d := drainByTable pid .accumulating (len + l.length) rest
      { d with stored := (l.zipIdx len).map (fun p => (p.2, p.1)) ++ d.stored } := by
  induction l generalizing len with
  | nil => rfl
  | cons b l ih =>
    have hlen : len + 1 + l.length = len + (b :: l).length := by simp; omega
    have hrow := byteRow_store (pid := pid) (b := b) (len := len) (l ++ rest) (by omega) (by simp at h10; omega)
    rw [List.cons_append, drainByTable_cons (by decide) hrow]
    simp only
    rw [ih (len + 1) (by omega) (by simp at h10; omega), hlen]
    rfl

/-- A run of bytes stored from index `len` on follows the bytes before it. -/
theorem storeAll_zipIdx (buf : Vector Byte 11) (l : List Byte) (len : Nat) (h : len + l.length ≤ 11) :
    (storeAll buf ((l.zipIdx len).map fun p => (p.2, p.1))).toList.take (len + l.length) =
      buf.toList.take len ++ l := by
  induction l generalizing len buf with
  | nil => simp [storeAll]
  | cons b l ih =>
    simp only [List.length_cons] at h
    have := ih (buf.setIfInBounds len b) (len + 1) (by omega)
    simp only [List.zipIdx_cons, List.map_cons, storeAll, List.length_cons]
    rw [show len + (l.length + 1) = len + 1 + l.length by omega, this, setIfInBounds_eq_set _ _ (by omega),
      Vector.toList_set, List.take_succ_eq_append_getElem (by simp; omega)]
    simp only [List.getElem_set_self, List.append_assoc, List.singleton_append]
    rw [List.take_set_of_le (Nat.le_refl _)]

/-- An index that is not stored to keeps its byte. -/
theorem storeAll_of_notMem (buf : Vector Byte 11) (l : List (Nat × Byte)) (j : Nat) (h : j ∉ l.map Prod.fst) :
    (storeAll buf l)[j]? = buf[j]? := by
  induction l generalizing buf with
  | nil => rfl
  | cons x l ih =>
    obtain ⟨i, b⟩ := x
    simp at h
    rw [storeAll, ih _ (by simpa using h.2), Vector.getElem?_setIfInBounds_ne (by omega)]

/-- What is at hand after a byte decides at most its label. -/
theorem byteRow_rest (pid b : Byte) (st : DecoderState) (len : Nat) (rest rest' : List Byte) :
    (byteRow pid st len b rest).st = (byteRow pid st len b rest').st ∧
    (byteRow pid st len b rest).len = (byteRow pid st len b rest').len := by
  cases st with
  | searchingSync | frameReady => exact ⟨rfl, rfl⟩
  | accumulating =>
    simp only [byteRow]
    split
    · exact ⟨rfl, rfl⟩
    · split <;> exact ⟨rfl, rfl⟩

/-- Phase 1 consumes a prefix of the bytes at hand, which leads to the same `st` and `len`, and no shorter prefix makes a
frame ready (R102). -/
theorem drainByTable_left (pid : Byte) (avail : List Byte) (st : DecoderState) (len : Nat) :
    ∃ used, avail = used ++ (drainByTable pid st len avail).left ∧
      (∀ k < used.length, (drainByTable pid st len (used.take k)).st ≠ .frameReady) ∧
      (drainByTable pid st len used).st = (drainByTable pid st len avail).st ∧
      (drainByTable pid st len used).len = (drainByTable pid st len avail).len := by
  induction avail generalizing st len with
  | nil => exact ⟨[], rfl, by simp, rfl, rfl⟩
  | cons b rest ih =>
    by_cases hst : st = .frameReady
    · exact ⟨[], by simp [drainByTable, hst]⟩
    · obtain ⟨used, hu, hk, hs, hl⟩ := ih (byteRow pid st len b rest).st (byteRow pid st len b rest).len
      have hrow (r : List Byte) := byteRow_rest pid b st len r rest
      refine ⟨b :: used, ?_, fun k hlt => ?_, ?_, ?_⟩
      · simp only [drainByTable, if_neg hst, List.cons_append]
        rw [← hu]
      · cases k with
        | zero => simpa [drainByTable] using hst
        | succ k =>
          simp only [List.take_succ_cons, drainByTable, if_neg hst, hrow]
          exact hk k (by simpa using hlt)
      · simp only [drainByTable, if_neg hst, hrow, hs]
      · simp only [drainByTable, if_neg hst, hrow, hl]

/-- A frame in progress after phase 1 has `0x55` at index 0 if it had before (R27 (a)). -/
theorem storeAll_sync (pid : Byte) (avail : List Byte) (st : DecoderState) (len : Nat) (buf : Vector Byte 11)
    (hss : st = .searchingSync → len = 0) (hacc : st = .accumulating → 1 ≤ len ∧ len ≤ 10)
    (hs : 1 ≤ len → buf[0]?.getD 0 = 0x55) :
    1 ≤ (drainByTable pid st len avail).len →
      (storeAll buf (drainByTable pid st len avail).stored)[0]?.getD 0 = 0x55 := by
  induction avail generalizing st len buf with
  | nil => exact hs
  | cons b rest ih =>
    cases st with
    | frameReady => rw [drainByTable_ready]; exact hs
    | searchingSync =>
      by_cases hb : b = 0x55
      · subst hb
        rw [drainByTable_cons (by decide) (byteRow_sync pid len rest)]
        exact ih _ _ (buf.setIfInBounds 0 0x55) (by simp) (by simp) (by simp)
      · rw [drainByTable_cons (by decide) (byteRow_discard pid len rest hb)]
        exact ih _ _ buf (by simp) (by simp) (by simp)
    | accumulating =>
      have hl := hacc rfl
      by_cases h1 : len = 1 ∧ pid ≠ 0x00 ∧ b ≠ pid
      · rw [drainByTable_cons (by decide) (byteRow_reject rest h1)]
        exact ih _ _ buf (by simp) (by simp) (by simp)
      · have hkeep : (buf.setIfInBounds len b)[0]?.getD 0 = 0x55 := by
          rw [Vector.getElem?_setIfInBounds_ne (by omega)]
          exact hs hl.1
        by_cases h9 : len ≤ 9
        · rw [drainByTable_cons (by decide) (byteRow_store rest h1 h9)]
          exact ih _ _ (buf.setIfInBounds len b) (by simp) (by simp; omega) (fun _ => hkeep)
        · rw [drainByTable_cons (by decide) (byteRow_eleventh rest h9)]
          exact ih _ _ (buf.setIfInBounds 10 b) (by simp) (by simp)
            (fun _ => by rw [show len = 10 by omega] at hkeep; exact hkeep)

/-- A POLL that takes no time samples the clock it starts with. -/
theorem clockAfter_of_noLapse {s : State} (h : s.lapses = []) (k : Nat) : clockAfter s k = s.now := by
  simp [clockAfter, h]

/-- No break after a byte stored in a POLL that takes no time (R202). -/
theorem firesByTable_of_stored {s : State} {d : Drained} (hl : s.lapses = []) (hc : s.cfg.Legal)
    (h : d.stored.length ≠ 0) : firesByTable s d = false := by
  have ht : s.cfg.breakThreshold.toNat ≠ 0 := fun h => hc (BitVec.eq_of_toNat_eq (by simpa using h))
  refine decide_eq_false fun hf => ?_
  have := hf.2
  rw [tLastByTable, if_neg h, clockAfter_of_noLapse hl, clockAfter_of_noLapse hl, BitVec.sub_self] at this
  exact ht (Nat.le_zero.1 this)

end Sys2Proof.Machine
end

