-- ==== Sys2Proof/Tests/Slice0.lean ====
section
/-! SUPPORT. Tests: the checks of WellFormed, words written out from `spec/30_encoding.md`, the vectors of
`spec/95_test_vectors.md` (named V, P, K, W, X as there), and for each obligation with hypotheses a witness that meets
them. -/

namespace Sys2Proof.Tests
open Sys2Proof.Machine

/-- The state an outcome goes on to, absent where the machine stops. -/
def after : Host.Outcome State Fault Refusal → Option State
  | .next s => some s
  | .fault _ => none
  | .refused _ => none

/-- Why an outcome is refused, absent where the machine goes on. -/
def refusal : Host.Outcome State Fault Refusal → Option Refusal
  | .next _ => none
  | .fault _ => none
  | .refused r => some r

/-- The registers `st / len / t_last / last_len` after an operation, with its response and its labels. -/
structure Summary where
  st : DecoderState
  len : Len
  tLast : Time
  lastLen : Len
  resp : Option Response
  trace : List Label
deriving DecidableEq, Repr

/-- The summary of an outcome. -/
def summary (o : Host.Outcome State Fault Refusal) : Option Summary :=
  (after o).map fun s => ⟨s.st, s.len, s.tLast, s.lastLen, s.resp, s.trace⟩

/-- A buffer that begins with the given bytes and is `0x00` after them. -/
def bufOf (bytes : List Byte) : Vector Byte 11 := Vector.ofFn fun i => bytes.getD i.val 0x00

/-- A state after INIT with the clock at `now` and the bytes `rxq` at hand. -/
def idle (now : Time) (rxq : List Byte) : State := { State.reset with bound := true, now := now, rxq := rxq }

/-- A state with a frame in progress, its last byte stored at `tLast`. -/
def accumulating (bytes : List Byte) (tLast now : Time) (rxq : List Byte) : State :=
  { idle now rxq with
    buf := bufOf bytes, len := BitVec.ofNat 4 bytes.length, st := .accumulating, tLast := tLast }

/-- A state with a frame ready. -/
def ready (bytes : List Byte) : State := { accumulating bytes 0 0 [] with st := .frameReady }

/-- A POLL in progress in `s`. -/
def during (pid : Byte) (phase : PollPhase) (s : State) : State := { s with poll := some ⟨pid, phase⟩ }

/-! ## WellFormed: one ill-formed term for each check -/

theorem test_smoke_checksumOperand : Instr.check (.checksum 12) = some .checksumOperand := by decide
theorem test_smoke_validateOperand : Instr.check (.validate 1) = some .validateOperand := by decide
theorem test_smoke_validateOperand_high : Instr.check (.validate 12) = some .validateOperand := by decide
theorem test_smoke_acceptsNonSync : Instr.check (.bSyncAccept 0x54) = some .acceptsNonSync := by decide
theorem test_smoke_discardsSync : Instr.check (.bSyncDiscard 0x55) = some .discardsSync := by decide

/-! ## Decoding: words written out bit by bit from R72 and R79 -/

theorem test_decode_init : decodeCmd 0b0000_0000_0000 = .ok .init := by rfl
theorem test_decode_init_arg : decodeCmd 0b0000_1111_1111 = .ok .init := by rfl
theorem test_decode_poll : decodeCmd 0b0001_1100_1111 = .ok (.poll 0xCF) := by rfl
theorem test_decode_lastFrame : decodeCmd 0b0010_0000_0000 = .ok .lastFrame := by rfl
theorem test_decode_checksum : decodeCmd 0b0011_0000_0011 = .ok (.checksum 3) := by rfl
theorem test_decode_validate : decodeCmd 0b0100_0000_1011 = .ok (.validate 11) := by rfl
theorem test_decode_reserved : decodeCmd 0b0101_0000_0000 = .error (.reservedOpcode 5) := by rfl
theorem test_decode_reservedBits : decodeCmd 0b0011_0001_0011 = .error .reservedArgBits := by rfl
theorem test_decode_syncAccept :
    decode ⟨some ⟨0xCF, .drain⟩, .searchingSync, 0⟩ (.byte 0b0101_0101) = .ok (.bSyncAccept 0x55) := by rfl
theorem test_decode_syncDiscard :
    decode ⟨some ⟨0xCF, .drain⟩, .searchingSync, 0⟩ (.byte 0b1010_1010) = .ok (.bSyncDiscard 0xAA) := by rfl
theorem test_decode_pidReject :
    decode ⟨some ⟨0xCF, .drain⟩, .accumulating, 1⟩ (.byte 0b0101_0101) = .ok (.bPidReject 0x55) := by rfl
theorem test_decode_store_pid :
    decode ⟨some ⟨0xCF, .drain⟩, .accumulating, 1⟩ (.byte 0b1100_1111) = .ok (.bStore 0xCF) := by rfl
theorem test_decode_store_wildcard :
    decode ⟨some ⟨0x00, .drain⟩, .accumulating, 1⟩ (.byte 0b0000_0000) = .ok (.bStore 0x00) := by rfl
theorem test_decode_store_data :
    decode ⟨some ⟨0xCF, .drain⟩, .accumulating, 10⟩ (.byte 0b0101_0101) = .ok (.bStore 0x55) := by rfl
theorem test_decode_tBreak : decode ⟨some ⟨0xCF, .drain⟩, .accumulating, 3⟩ .event = .ok .tBreak := by rfl
theorem test_decode_deliver : decode ⟨some ⟨0xCF, .settle⟩, .frameReady, 2⟩ .event = .ok .deliver := by rfl
theorem test_decode_dropShort : decode ⟨some ⟨0xCF, .settle⟩, .frameReady, 1⟩ .event = .ok .dropShort := by rfl
/-- R79: no byte is popped while the frame is ready; R78: no step without a POLL. -/
theorem test_decode_nothing : decode ⟨some ⟨0xCF, .drain⟩, .frameReady, 11⟩ (.byte 0x55) = .error .noPollStep ∧
    decode ⟨none, .searchingSync, 0⟩ (.byte 0x55) = .error .noPollStep := by exact ⟨rfl, rfl⟩

/-! ## Words of the opcode table, and a step on each -/

theorem test_table_words : decodeTableWord 16 0x000 = some .init ∧ decodeTableWord 16 0x100 = some (.poll 0x00) ∧
    decodeTableWord 16 0x200 = some .lastFrame ∧ decodeTableWord 16 0x300 = some (.checksum 0) ∧
    decodeTableWord 16 0x400 = some (.validate 0) ∧ decodeTableWord 8 0x55 = some (.bSyncAccept 0x55) ∧
    decodeTableWord 8 0x00 = some (.bSyncDiscard 0x00) ∧ decodeTableWord 16 0x500 = none ∧
    decodeTableWord 16 0x1000 = none := by
  exact ⟨rfl, rfl, rfl, rfl, rfl, rfl, rfl, rfl, rfl⟩

theorem test_fetch_first_init : (after (step (State.reset.withFetchWord 16 0x000))).map (·.bound) = some true := by decide
theorem test_fetch_first_sync : (after (step (State.reset.withFetchWord 8 0x55))).map (fun s => (s.st, s.len, s.rxq)) =
    some (.accumulating, 1, []) := by decide

/-! ## INIT, POLL, LASTFRAME -/

/-- V13: INIT in the middle of a frame. -/
theorem test_init : (after (exec .init { accumulating [0x55, 0xCF, 0x01] 7 9 [0x2F] with lastLen := 4 })).map
    (fun s => (s.buf, s.bound, s.rxq, s.now)) = some (bufOf [], true, [0x2F], 9) ∧
    summary (exec .init (accumulating [0x55, 0xCF, 0x01] 7 9 [])) = some ⟨.searchingSync, 0, 0, 0, none, []⟩ := by
  decide

/-- V6: a reject, and the drain goes on in the same POLL. -/
theorem test_poll_V6 : summary (exec (.poll 0xCF) (idle 5000 [0x55, 0x01, 0x55, 0xCF, 0x05, 0x2B])) =
    some ⟨.accumulating, 4, 5000, 0, some (.frame .incomplete), [.pidMismatch]⟩ := by decide

/-- V8: forced completion, the surplus left in the queue and met by the next POLL. The label Overflow is that of R161
for more than eleven bytes; the braces of V8 do not list it (log 11). -/
theorem test_poll_V8 : let s := exec (.poll 0xCF) (idle 10 [0x55, 0xCF, 1, 2, 3, 4, 5, 6, 7, 8, 0x0C, 0x00, 0x55, 0x11])
    summary s = some ⟨.searchingSync, 0, 10, 11, some (.frame (.complete 11)), [.overflow]⟩ ∧
    (after s).map (·.rxq) = some [0x00, 0x55, 0x11] ∧
    (after s).bind (fun t => summary (exec (.poll 0xCF) t)) =
      some ⟨.searchingSync, 0, 10, 11, some (.frame .incomplete), [.syncMismatch, .pidMismatch]⟩ := by decide

/-- V16: a POLL that takes time, its last sample one below the threshold and at it. -/
theorem test_poll_V16 :
    summary (exec (.poll 0xCF) { idle 0 [0x55, 0xCF, 0x01] with lapses := [100, 1, 1, 728] }) =
      some ⟨.searchingSync, 0, 102, 3, some (.frame (.complete 3)), [.breakSeen]⟩ ∧
    summary (exec (.poll 0xCF) { idle 0 [0x55, 0xCF, 0x01] with lapses := [100, 1, 1, 727] }) =
      some ⟨.accumulating, 3, 102, 0, some (.frame .incomplete), []⟩ := by decide

/-- V15: LASTFRAME before INIT. -/
theorem test_lastFrame_V15 : (after (exec .lastFrame State.reset)).map (·.resp) =
    some (some (.snapshot (bufOf []) 0)) := by decide

/-- P1 line 16: LASTFRAME after a frame. -/
theorem test_lastFrame_P1 :
    (after (exec .lastFrame { idle 3291 [] with buf := bufOf [0x55, 0xCF, 0x01, 0x2F], lastLen := 4 })).map (·.resp) =
    some (some (.snapshot (bufOf [0x55, 0xCF, 0x01, 0x2F]) 4)) := by decide

/-! ## CHECKSUM and VALIDATE -/

/-- K6, K8, K16: exactly 255 is not reduced, 256 is, and the largest intermediate sums. -/
theorem test_checksum_K : checksum [0x55, 0xFF] 2 = 0x00 ∧ checksum [0x55, 0xFF, 0x01] 3 = 0xFE ∧
    checksum (0x55 :: List.replicate 10 0xFF) 11 = 0x00 ∧ checksum [0x55, 0xCF, 0x01] 2 = 0x30 ∧
    checksum [0x55, 0xCF, 0x01] 0 = 0xFF := by decide

/-- P1 line 17 and X3. -/
theorem test_checksum : (after (exec (.checksum 3) (accumulating [0x55, 0xCF, 0x01, 0x2F] 0 0 []))).map (·.resp) =
    some (some (.checksum 0x2F)) ∧ refusal (exec (.checksum 12) State.reset) = some .checksumOperand := by decide

/-- W1 and W2 (the source's own "valid frame", S2), with the words of P1 line 15. -/
theorem test_validate : (after (exec (.validate 4) (accumulating [0x55, 0xCF, 0x01, 0x2F] 0 0 []))).map
      (fun s => (s.resp.map Response.port, s.trace)) = some (some (17, 0x12F2F), []) ∧
    (after (exec (.validate 4) (accumulating [0x55, 0xCF, 0x01, 0x30] 0 0 []))).map
      (fun s => (s.resp, s.trace)) = some (some (.verdict (.mismatch 0x2F 0x30)), [.checksumMismatch]) := by decide

/-- X4, and the accepted neighbours W5 and W11. -/
theorem test_validate_range : refusal (exec (.validate 1) State.reset) = some .validateOperand ∧
    refusal (exec (.validate 12) State.reset) = some .validateOperand ∧
    (after (exec (.validate 2) (accumulating [0x55, 0xFF] 0 0 []))).map (·.resp) =
      some (some (.verdict (.matching 0xFF 0xFF))) ∧
    (after (exec (.validate 11) (ready [0x55, 0xCF, 0x07, 0, 0, 0, 0, 0, 0, 0, 0x29]))).map (·.resp) =
      some (some (.verdict (.matching 0x29 0x29))) := by decide

/-! ## The seven steps of a POLL -/

/-- R106 at clock sample 100. -/
theorem test_syncAccept : (after (exec (.bSyncAccept 0x55)
      (during 0xCF .drain { idle 90 [] with lapses := [10] }))).map
    (fun s => (s.buf, s.len, s.st, s.tLast, s.now)) = some (bufOf [0x55], 1, .accumulating, 100, 100) := by decide

/-- R105: the neighbour of the sync byte. -/
theorem test_syncDiscard : summary (exec (.bSyncDiscard 0x54) (during 0xCF .drain (idle 50 []))) =
    some ⟨.searchingSync, 0, 0, 0, none, [.syncMismatch]⟩ := by decide

/-- V7: a rejected `0x55` is not a new sync, and is not stored. -/
theorem test_pidReject : (after (exec (.bPidReject 0x55) (during 0xCF .drain (accumulating [0x55] 42 99 [])))).map
    (fun s => (s.buf, s.len, s.st, s.tLast, s.trace)) =
    some (bufOf [0x55], 0, .searchingSync, 42, [.pidMismatch]) := by decide

/-- V8: the eleventh byte; with nothing more at hand no abnormal condition is met. -/
theorem test_store_eleventh : (after (exec (.bStore 0x0C)
      (during 0xCF .drain (accumulating [0x55, 0xCF, 1, 2, 3, 4, 5, 6, 7, 8] 10 11 [])))).map
    (fun s => (s.buf, s.len, s.st, s.tLast, s.trace)) =
    some (bufOf [0x55, 0xCF, 1, 2, 3, 4, 5, 6, 7, 8, 0x0C], 11, .frameReady, 11, []) := by decide

/-- The tenth byte does not complete. -/
theorem test_store_tenth : (after (exec (.bStore 0x08)
      (during 0xCF .drain (accumulating [0x55, 0xCF, 1, 2, 3, 4, 5, 6, 7] 10 11 [])))).map
    (fun s => (s.len, s.st)) = some (10, .accumulating) := by decide

/-- V3: the threshold is reached at 728, not at 727. -/
theorem test_tBreak_V3 :
    (after (exec .tBreak (during 0xCF .drain (accumulating [0x55, 0xCF, 0x01, 0x2F] 2563 3290 [])))).map
      (fun s => (s.st, s.trace)) = some (.accumulating, []) ∧
    (after (exec .tBreak (during 0xCF .drain (accumulating [0x55, 0xCF, 0x01, 0x2F] 2563 3291 [])))).map
      (fun s => (s.st, s.trace)) = some (.frameReady, [.breakSeen]) := by decide

/-- V10: the clock has wrapped. -/
theorem test_tBreak_V10 :
    (after (exec .tBreak (during 0x00 .drain (accumulating [0x55, 0x3C] 18446744073709551516 627 [])))).map (·.st) =
      some .accumulating ∧
    (after (exec .tBreak (during 0x00 .drain (accumulating [0x55, 0x3C] 18446744073709551516 628 [])))).map (·.st) =
      some .frameReady := by decide

/-- R111 at the smallest length. -/
theorem test_deliver : summary (exec .deliver (during 0xCF .settle (ready [0x55, 0xCF]))) =
    some ⟨.searchingSync, 0, 0, 2, some (.frame (.complete 2)), []⟩ := by decide

/-- R112: `last_len` stays (V4). -/
theorem test_dropShort : summary (exec .dropShort (during 0xCF .settle { ready [0x55] with lastLen := 4 })) =
    some ⟨.searchingSync, 0, 0, 4, some (.frame .incomplete), [.truncated]⟩ := by decide

/-! ## Refusals X1, X2, X5, and R78 -/

theorem test_refusals : refusal (exec (.poll 0xCF) State.reset) = some .pollBeforeInit ∧
    refusal (step { State.reset with inbox := [.cmd 0x500] }) = some (.reservedOpcode 5) ∧
    refusal (step { State.reset with inbox := [.cmd 0x313] }) = some .reservedArgBits ∧
    refusal (exec .deliver State.reset) = some .stepNotSelected := by decide

/-- U9: a register state the rules never produce. -/
theorem test_registersOutsideRules :
    refusal (exec (.poll 0xCF) { idle 0 [] with len := 12 }) = some .registersOutsideRules ∧
    refusal (exec (.poll 0xCF) { idle 0 [] with st := .accumulating }) = some .registersOutsideRules := by decide

/-- A threshold of 0 is refused at instantiation (U10). -/
theorem test_instantiate : State.instantiate ⟨0⟩ = none ∧
    (State.instantiate ⟨1⟩).map (·.cfg.breakThreshold) = some 1 := by decide

/-! ## Witnesses: a state and operands that meet all hypotheses of each obligation that has some -/

theorem witness_ResetInputClearsTheRegisters : ∃ (s : State) (rest : List Input),
    s.poll = none ∧ s.inbox = .reset :: rest :=
  ⟨{ accumulating [0x55] 1 2 [0xCF] with inbox := [.reset, .tick 1] }, [.tick 1], rfl, rfl⟩

/-- Every instruction is well formed and selected in some context, the operands at the ends of their ranges. -/
theorem witness_DecodeOfEncodeIsTheInstruction :
    (WellFormed (.checksum 0) ∧ WellFormed (.checksum 11) ∧ WellFormed (.validate 2) ∧ WellFormed (.validate 11)) ∧
    (WellFormed (.bSyncAccept 0x55) ∧ Selects ⟨some ⟨0xCF, .drain⟩, .searchingSync, 0⟩ (.bSyncAccept 0x55)) ∧
    (WellFormed (.bSyncDiscard 0x54) ∧ Selects ⟨some ⟨0xCF, .drain⟩, .searchingSync, 0⟩ (.bSyncDiscard 0x54)) ∧
    Selects ⟨some ⟨0xCF, .drain⟩, .accumulating, 1⟩ (.bPidReject 0x55) ∧
    Selects ⟨some ⟨0xCF, .drain⟩, .accumulating, 1⟩ (.bStore 0xCF) ∧
    Selects ⟨some ⟨0x00, .drain⟩, .accumulating, 1⟩ (.bStore 0x01) ∧
    Selects ⟨some ⟨0xCF, .drain⟩, .accumulating, 10⟩ (.bStore 0x01) ∧
    Selects ⟨some ⟨0xCF, .drain⟩, .accumulating, 3⟩ .tBreak ∧
    Selects ⟨some ⟨0xCF, .settle⟩, .frameReady, 2⟩ .deliver ∧
    Selects ⟨some ⟨0xCF, .settle⟩, .frameReady, 11⟩ .deliver ∧
    Selects ⟨some ⟨0xCF, .settle⟩, .frameReady, 1⟩ .dropShort := by
  refine ⟨by decide, ⟨by decide, ⟨_, rfl⟩, rfl, rfl⟩, ⟨by decide, ⟨_, rfl⟩, rfl, by decide⟩, ⟨_, rfl, by decide⟩,
    ⟨_, rfl, by decide⟩, ⟨_, rfl, by decide⟩, ⟨_, rfl, by decide⟩, ⟨_, rfl⟩, ⟨⟨_, rfl⟩, by decide⟩,
    ⟨⟨_, rfl⟩, by decide⟩, ⟨⟨_, rfl⟩, by decide⟩⟩

theorem witness_EncodeOfDecodeIsTheWord : decodeCmd 0x0FF = .ok .init ∧ decodeCmd 0x1FF = .ok (.poll 0xFF) := by
  exact ⟨rfl, rfl⟩

theorem witness_CommandWordsByMaskAndMatch :
    (0x0FF : Cmd) &&& 0xF00 = 0x000 ∧ (0x1FF : Cmd) &&& 0xF00 = 0x100 ∧ (0x2FF : Cmd) &&& 0xF00 = 0x200 ∧
    (0x30F : Cmd) &&& 0xFF0 = 0x300 ∧ (0x40F : Cmd) &&& 0xFF0 = 0x400 ∧
    ((0x310 : Cmd) &&& 0xF00 = 0x300 ∧ (0x310 : Cmd) &&& 0x0F0 ≠ 0) ∧
    ((0x4FF : Cmd) &&& 0xF00 = 0x400 ∧ (0x4FF : Cmd) &&& 0x0F0 ≠ 0) ∧
    (0x500 : Cmd) ≤ 0x500 ∧ (0x500 : Cmd) ≤ 0xFFF := by decide

theorem witness_ReceivedByteTakesTheFirstRow : ∀ p ∈ [(DecoderState.searchingSync, (0 : Len)), (.accumulating, 1),
    (.accumulating, 10)], p.1 ≠ .frameReady ∧ (p.1 = .accumulating → 1 ≤ p.2.toNat ∧ p.2.toNat ≤ 10) := by decide

theorem witness_SyncByteInsideAFrameIsData : ∀ len ∈ [(2 : Len), 10], 2 ≤ len.toNat ∧ len.toNat ≤ 10 := by decide

/-- The lowest and the highest byte of the snapshot. -/
theorem witness_ResponseWordsHoldTheirFields : ∀ i ∈ [0, 10], i < 11 := by decide

theorem witness_StepRunsTheCommand : ∃ (s : State) (w : Cmd) (rest : List Input) (i : Instr),
    s.poll = none ∧ s.inbox = .cmd w :: rest ∧ decodeCmd w = .ok i :=
  ⟨{ idle 0 [] with inbox := [.cmd 0x1CF, .rx 0x55] }, 0x1CF, [.rx 0x55], .poll 0xCF, rfl, rfl, rfl⟩

/-- One state for each of the four clauses, the second in both of its forms. -/
theorem witness_StepRunsTheDueStepOfThePoll :
    (let s := during 0xCF .drain (idle 0 [0x55, 0xCF])
     s.poll = some ⟨0xCF, .drain⟩ ∧ s.st ≠ .frameReady ∧ s.rxq = 0x55 :: [0xCF] ∧
       decode s.context (.byte 0x55) = .ok (.bSyncAccept 0x55)) ∧
    (let s := during 0xCF .drain (idle 0 [])
     s.poll = some ⟨0xCF, .drain⟩ ∧ (s.st = .frameReady ∨ s.rxq = [])) ∧
    (let s := during 0xCF .drain { ready [0x55, 0xCF] with rxq := [0x01] }
     s.poll = some ⟨0xCF, .drain⟩ ∧ (s.st = .frameReady ∨ s.rxq = [])) ∧
    (let s := during 0xCF .settle (ready [0x55, 0xCF])
     s.poll = some ⟨0xCF, .settle⟩ ∧ s.st = .frameReady ∧ decode s.context .event = .ok .deliver) ∧
    (let s := during 0xCF .settle (idle 0 [])
     s.poll = some ⟨0xCF, .settle⟩ ∧ s.st ≠ .frameReady) := by
  exact ⟨⟨rfl, by decide, rfl, rfl⟩, ⟨rfl, .inr rfl⟩, ⟨rfl, .inl rfl⟩, ⟨rfl, rfl, rfl⟩, ⟨rfl, by decide⟩⟩

theorem witness_EnvironmentTouchesOnlyQueueAndClock :
    (let s := { idle 0 [] with inbox := [.rx 0x55] }; s.poll = none ∧ s.inbox = .rx 0x55 :: []) ∧
    (let s := { idle 0 [] with inbox := [.tick 728] }; s.poll = none ∧ s.inbox = .tick 728 :: []) ∧
    (let s := idle 0 []; s.poll = none ∧ s.inbox = []) := by decide

theorem witness_ReservedCommandsAreRefused :
    (let s := { idle 0 [] with inbox := [.cmd 0x500] }
     s.poll = none ∧ s.inbox = .cmd 0x500 :: [] ∧ 5 ≤ (cmdOp 0x500).toNat) ∧
    (let s := { idle 0 [] with inbox := [.cmd 0x310] }
     s.poll = none ∧ s.inbox = .cmd 0x310 :: [] ∧ (cmdOp 0x310 = 3 ∨ cmdOp 0x310 = 4) ∧ (0x310 : Cmd) &&& 0x0F0 ≠ 0) ∧
    (let s := { idle 0 [] with inbox := [.cmd 0x4F2] }
     s.poll = none ∧ s.inbox = .cmd 0x4F2 :: [] ∧ (cmdOp 0x4F2 = 3 ∨ cmdOp 0x4F2 = 4) ∧
       (0x4F2 : Cmd) &&& 0x0F0 ≠ 0) := by decide

theorem witness_NoInputIsTakenDuringAPoll : ∃ s t : State, s.poll ≠ none ∧ step s = .next t :=
  ⟨during 0xCF .drain { idle 0 [0x55] with inbox := [.cmd 0x000] }, _, by decide, rfl⟩

theorem witness_SyncDiscardLosesTheByte : let s := during 0xCF .drain (idle 0 [])
    s.poll = some ⟨0xCF, .drain⟩ ∧ s.st = .searchingSync ∧ (0x54 : Byte) ≠ 0x55 := by decide

theorem witness_SyncAcceptStartsAFrame : let s := during 0xCF .drain (idle 0 [])
    s.poll = some ⟨0xCF, .drain⟩ ∧ s.st = .searchingSync := by decide

theorem witness_PidRejectAbortsTheFrame : let s := during 0xCF .drain (accumulating [0x55] 0 0 [])
    s.poll = some ⟨0xCF, .drain⟩ ∧ s.st = .accumulating ∧ s.len = 1 ∧ (0xCF : Byte) ≠ 0x00 ∧
      (0x55 : Byte) ≠ 0xCF := by decide

/-- At the PID that passes the filter, at any PID with the wildcard, and at the eleventh byte with more at hand and with
none. -/
theorem witness_StoreAppendsTheByte :
    (let s := during 0xCF .drain (accumulating [0x55] 0 0 [])
     s.poll = some ⟨0xCF, .drain⟩ ∧ s.st = .accumulating ∧ 1 ≤ s.len.toNat ∧ s.len.toNat ≤ 10 ∧
       ¬(s.len = 1 ∧ (0xCF : Byte) ≠ 0x00 ∧ (0xCF : Byte) ≠ 0xCF)) ∧
    (let s := during 0x00 .drain (accumulating [0x55] 0 0 [])
     s.poll = some ⟨0x00, .drain⟩ ∧ s.st = .accumulating ∧ 1 ≤ s.len.toNat ∧ s.len.toNat ≤ 10 ∧
       ¬(s.len = 1 ∧ (0x00 : Byte) ≠ 0x00 ∧ (0x01 : Byte) ≠ 0x00)) ∧
    (∀ surplus ∈ [[], [(0x00 : Byte)]],
      let s := during 0xCF .drain (accumulating [0x55, 0xCF, 1, 2, 3, 4, 5, 6, 7, 8] 0 0 surplus)
      s.poll = some ⟨0xCF, .drain⟩ ∧ s.st = .accumulating ∧ s.len.toNat = 10 ∧ s.rxq = surplus ∧
        ¬(s.len = 1 ∧ (0xCF : Byte) ≠ 0x00 ∧ (0x0C : Byte) ≠ 0xCF)) := by decide

/-- The byte events, where a byte is stored and where none is, and the three steps without a byte. -/
theorem witness_PollStepsKeepTheRest :
    (∃ t, exec (.bSyncAccept 0x55) (during 0xCF .drain (idle 0 [])) = .next t) ∧
    (∃ t, exec (.bSyncDiscard 0x54) (during 0xCF .drain (idle 0 [])) = .next t) ∧
    (∃ t, exec (.bPidReject 0x55) (during 0xCF .drain (accumulating [0x55] 0 0 [])) = .next t) ∧
    (∃ t, exec (.bStore 0xCF) (during 0xCF .drain (accumulating [0x55] 0 0 [])) = .next t) ∧
    (∃ t, exec .tBreak (during 0xCF .drain (accumulating [0x55] 0 728 [])) = .next t) ∧
    (∃ t, exec .deliver (during 0xCF .settle (ready [0x55, 0xCF])) = .next t) ∧
    (∃ t, exec .dropShort (during 0xCF .settle (ready [0x55])) = .next t) := by
  exact ⟨⟨_, rfl⟩, ⟨_, rfl⟩, ⟨_, rfl⟩, ⟨_, rfl⟩, ⟨_, rfl⟩, ⟨_, rfl⟩, ⟨_, rfl⟩⟩

/-- Selected, T_BREAK with its drain ended; not selected, T_BREAK with a byte still at hand; and no POLL at all. -/
theorem witness_PollStepsRunExactlyWhereSelected :
    (Instr.isHost .deliver = false ∧ Selects (during 0xCF .settle (ready [0x55, 0xCF])).context .deliver) ∧
    (let s := during 0xCF .drain (accumulating [0x55] 0 0 [])
     Selects s.context .tBreak ∧ (s.st = .frameReady ∨ s.rxq = [])) ∧
    (let s := during 0xCF .drain (accumulating [0x55] 0 0 [0xCF]); ¬(s.st = .frameReady ∨ s.rxq = [])) ∧
    (¬Selects (during 0xCF .settle (ready [0x55])).context .deliver) ∧ State.reset.poll = none := by
  exact ⟨⟨rfl, ⟨_, rfl⟩, by decide⟩, ⟨⟨_, rfl⟩, by decide⟩, by decide, fun h => absurd h.2.2.1 (by decide), rfl⟩

/-- The threshold reached exactly, and missed by one. -/
theorem witness_BreakCheckFiresAtTheThreshold :
    (let s := during 0xCF .drain (accumulating [0x55, 0xCF] 0 728 [])
     s.poll = some ⟨0xCF, .drain⟩ ∧ (s.st = .frameReady ∨ s.rxq = []) ∧ s.st = .accumulating ∧
       s.cfg.breakThreshold.toNat ≤ (clockAfter s 1 - s.tLast).toNat) ∧
    (let s := during 0xCF .drain (accumulating [0x55, 0xCF] 0 727 [])
     s.poll = some ⟨0xCF, .drain⟩ ∧ (s.st = .frameReady ∨ s.rxq = []) ∧
       ¬(s.st = .accumulating ∧ s.cfg.breakThreshold.toNat ≤ (clockAfter s 1 - s.tLast).toNat)) := by decide

theorem witness_DeliverHandsOutTheLength : ∀ s ∈ [during 0xCF .settle (ready [0x55, 0xCF]),
      during 0xCF .settle (ready [0x55, 0xCF, 1, 2, 3, 4, 5, 6, 7, 8, 0x0C])],
    s.poll = some ⟨0xCF, .settle⟩ ∧ s.st = .frameReady ∧ 2 ≤ s.len.toNat ∧ s.len.toNat ≤ 11 := by decide

theorem witness_DropShortIsSilent : ∀ s ∈ [during 0xCF .settle (ready []), during 0xCF .settle (ready [0x55])],
    s.poll = some ⟨0xCF, .settle⟩ ∧ s.st = .frameReady ∧ s.len.toNat < 2 := by decide

/-- Each clause at a boundary: not bound; bound with `len = 12`, and with `len = 11` in Accumulating; bound with
`len = 11` and the frame ready, and with `len = 10` in Accumulating. -/
theorem witness_PollIsRefusedBeforeInitAndOutsideTheRules :
    State.reset.bound = false ∧
    (let s := { idle 0 [] with len := 12 }; s.bound = true ∧ ¬RegistersInRules s) ∧
    (let s := { idle 0 [] with len := 11, st := .accumulating }; s.bound = true ∧ ¬RegistersInRules s) ∧
    (let s := { idle 0 [] with len := 11, st := .frameReady }; s.bound = true ∧ RegistersInRules s) ∧
    (let s := { idle 0 [] with len := 10, st := .accumulating }; s.bound = true ∧ RegistersInRules s) := by decide

theorem witness_PollIsTheTransitionTable : ∀ s ∈ [idle 0 [0x55, 0x01], accumulating [0x55] 0 0 [0x01],
      ready [0x55, 0xCF]],
    s.bound = true ∧ RegistersInRules s ∧ (s.st = .searchingSync → s.len = 0) := by decide

theorem witness_PollIsMadeOfItsSteps : ∀ s ∈ [idle 0 [0x55, 0x01], accumulating [0x55] 0 0 [0x01],
      ready [0x55, 0xCF]], s.bound = true ∧ RegistersInRules s := by decide

theorem witness_PollEndsBetweenOperations : ∀ s ∈ [idle 0 [0x55, 0x01], accumulating [0x55] 0 0 [0x01]],
    s.bound = true ∧ BetweenOperations s := by decide

theorem witness_PollKeepsTheRest : let s := accumulating [0x55, 0xCF] 0 0 [0x01]
    s.bound = true ∧ RegistersInRules s ∧ (s.st = .searchingSync → s.len = 0) ∧
      2 ∈ (drainByTable 0xCF s.st s.len.toNat s.rxq).stored.map Prod.fst ∧
      3 ∉ (drainByTable 0xCF s.st s.len.toNat s.rxq).stored.map Prod.fst := by decide

/-- Where bytes are left, and where none are. -/
theorem witness_PollConsumesAPrefix :
    (let s := idle 0 [0x00, 0x55]
     s.bound = true ∧ RegistersInRules s ∧ (s.st = .searchingSync → s.len = 0) ∧ s.st ≠ .frameReady ∧
       (pollByTable 0xCF s).rxq = []) ∧
    let s := accumulating [0x55, 0xCF, 1, 2, 3, 4, 5, 6, 7, 8] 0 0 [0x0C, 0x00]
    s.bound = true ∧ RegistersInRules s ∧ (s.st = .searchingSync → s.len = 0) ∧ s.st ≠ .frameReady ∧
      (pollByTable 0xCF s).rxq ≠ [] := by decide

theorem witness_WithoutSyncNoFrame : let s := idle 50 [0x00, 0xFF, 0x54, 0x56, 0xAA]
    s.bound = true ∧ s.poll = none ∧ s.st = .searchingSync ∧ s.len = 0 ∧ ∀ b ∈ s.rxq, b ≠ 0x55 := by decide

theorem witness_RejectGoesOnAfterTheRejectedByte : let s := idle 0 [0x55, 0x55, 0xCF, 0x01, 0x2F]
    s.bound = true ∧ s.st = .searchingSync ∧ s.len = 0 ∧ s.rxq = 0x55 :: 0x55 :: [0xCF, 0x01, 0x2F] ∧
      (0xCF : Byte) ≠ 0x00 ∧ (0x55 : Byte) ≠ 0xCF := by decide

/-- A frame kept in progress, and one completed in the POLL. -/
theorem witness_KeptFrameHasTheExpectedPid :
    (let s := idle 0 [0x55, 0xCF]
     s.bound = true ∧ s.st = .searchingSync ∧ s.len = 0 ∧ (0xCF : Byte) ≠ 0x00 ∧
       2 ≤ (pollByTable 0xCF s).len.toNat) ∧
    (let s := idle 0 [0x55, 0xCF, 1, 2, 3, 4, 5, 6, 7, 8, 0x0C]
     s.bound = true ∧ s.st = .searchingSync ∧ s.len = 0 ∧
       (pollByTable 0xCF s).resp = some (.frame (.complete 11))) := by decide

/-- With a surplus (V8) and without one. -/
theorem witness_ElevenBytesForceCompletion : ∀ surplus ∈ [[], [0x00, 0x55, (0x11 : Byte)]],
    let s := idle 10 ([0x55, 0xCF, 1, 2, 3, 4, 5, 6, 7, 8, 0x0C] ++ surplus)
    s.bound = true ∧ s.st = .searchingSync ∧ s.len = 0 ∧
      s.rxq = 0x55 :: 0xCF :: [1, 2, 3, 4, 5, 6, 7, 8, 0x0C] ++ surplus ∧
      [1, 2, 3, 4, 5, 6, 7, 8, (0x0C : Byte)].length = 9 ∧ ((0xCF : Byte) = 0x00 ∨ (0xCF : Byte) = 0xCF) := by decide

/-- From two bytes on, and up to ten. -/
theorem witness_PollAppendsToTheFrameInProgress : ∀ s ∈ [accumulating [0x55, 0xCF] 0 900 [0x01],
      accumulating [0x55, 0xCF] 0 900 [1, 2, 3, 4, 5, 6, 7, 8], accumulating [0x55, 0xCF, 1, 2, 3, 4, 5, 6, 7] 0 0 [8]],
    s.bound = true ∧ s.st = .accumulating ∧ 2 ≤ s.len.toNat ∧ s.lapses = [] ∧ s.cfg.Legal ∧ s.rxq ≠ [] ∧
      s.len.toNat + s.rxq.length ≤ 10 := by decide

theorem witness_WaitingByteBeatsAnExpiredSilence : let s := accumulating [0x55, 0xCF] 0 100000 [0x01]
    s.bound = true ∧ RegistersInRules s ∧ s.st = .accumulating ∧ s.rxq ≠ [] ∧ s.lapses = [] ∧ s.cfg.Legal := by decide

/-- One below the threshold; at it with two bytes; at it with a lone sync byte. -/
theorem witness_SilentPollCompletesOrWaits :
    (∀ s ∈ [accumulating [0x55, 0xCF] 100 827 [], accumulating [0x55, 0xCF] 100 828 [], accumulating [0x55] 100 828 []],
      s.bound = true ∧ s.poll = none ∧ RegistersInRules s ∧ s.st = .accumulating ∧ s.rxq = []) ∧
    (let s := accumulating [0x55, 0xCF] 100 827 []
     (clockAfter s 1 - s.tLast).toNat < s.cfg.breakThreshold.toNat) ∧
    (let s := accumulating [0x55, 0xCF] 100 828 []
     s.cfg.breakThreshold.toNat ≤ (clockAfter s 1 - s.tLast).toNat ∧ 2 ≤ s.len.toNat) ∧
    (let s := accumulating [0x55] 100 828 []
     s.cfg.breakThreshold.toNat ≤ (clockAfter s 1 - s.tLast).toNat ∧ s.len = 1) := by decide

theorem witness_PollEnteredReadyDeliversOrDrops : ∀ s ∈ [ready [0x55], ready [0x55, 0xCF],
      ready [0x55, 0xCF, 1, 2, 3, 4, 5, 6, 7, 8, 0x0C]],
    s.bound = true ∧ s.poll = none ∧ s.st = .frameReady ∧ s.len.toNat ≤ 11 := by decide

/-- P1 in one burst for each byte, and eight and nine bytes after the PID in two bursts; the silence is the threshold. -/
theorem witness_FrameInBurstsIsDeliveredOnce :
    (let s := idle 0 []
     s.bound = true ∧ s.st = .searchingSync ∧ s.len = 0 ∧ s.rxq = [] ∧ s.lapses = [] ∧ s.cfg.Legal ∧
       (0xCF : Byte) ≠ 0x00 ∧ s.cfg.breakThreshold.toNat ≤ (728 : Time).toNat) ∧
    (let bursts : List (List Byte × Time) := [([0x55], 1000), ([0xCF], 521), ([0x01], 521), ([0x2F], 521)]
     (bursts.map Prod.fst).flatten = 0x55 :: 0xCF :: [0x01, 0x2F] ∧ ∀ burst ∈ bursts, burst.1 ≠ []) ∧
    (let bursts : List (List Byte × Time) := [([0x55, 0xCF, 1], 0), ([2, 3, 4, 5, 6, 7, 8], 9000)]
     (bursts.map Prod.fst).flatten = 0x55 :: 0xCF :: [1, 2, 3, 4, 5, 6, 7, 8] ∧
       [1, 2, 3, 4, 5, 6, 7, (8 : Byte)].length ≤ 8 ∧ ∀ burst ∈ bursts, burst.1 ≠ []) ∧
    (let bursts : List (List Byte × Time) := [([0x55, 0xCF, 1], 0), ([2, 3, 4, 5, 6, 7, 8, 0x0C], 9000)]
     (bursts.map Prod.fst).flatten = 0x55 :: 0xCF :: [1, 2, 3, 4, 5, 6, 7, 8, 0x0C] ∧
       [1, 2, 3, 4, 5, 6, 7, 8, (0x0C : Byte)].length ≤ 9 ∧ ∀ burst ∈ bursts, burst.1 ≠ []) := by decide

theorem witness_DeliveredFrameIsReadableAndHandedOutOnce : ∃ s t : State, BetweenOperations s ∧
    exec (.poll 0xCF) s = .next t ∧ t.resp = some (.frame (.complete 3)) :=
  ⟨accumulating [0x55, 0xCF, 0x01] 0 800 [], _, by decide, rfl, by decide⟩

theorem witness_ConsumerTickIsNeverRefused : ∀ s ∈ [idle 0 [], accumulating [0x55, 0xCF, 0x30] 0 728 []],
    s.bound = true ∧ BetweenOperations s := by decide

theorem witness_ChecksumReturnsTheFunction : (11 : Len).toNat ≤ 11 ∧ 11 < (12 : Len).toNat := by decide

theorem witness_ChecksumFollowsItsSteps : ∀ n ∈ [0, 1, 3], n ≤ [0x55, 0xCF, (0x01 : Byte)].length := by decide

/-- K12 and K20: the order of the bytes, and another first byte. -/
theorem witness_ChecksumDependsOnlyOnTheSummedBytes :
    ((([0x55, 0xFE, 0x01] : List Byte).take 3).drop 1).Perm ((([0xAA, 0x01, 0xFE, 0x77] : List Byte).take 3).drop 1) := by
  decide

theorem witness_FoldFormAgreesAndMod255Differs : (0xFF : Acc) ≤ 0xFF := by decide

/-- Both ends of the range with a match and a mismatch (W5, W6, W11, W12), and both sides outside it. -/
theorem witness_ValidateComparesTheChecksums :
    (∀ L ∈ [(2 : Len), 11], 2 ≤ L.toNat ∧ L.toNat ≤ 11) ∧ (∀ L ∈ [(1 : Len), 12], L.toNat < 2 ∨ 11 < L.toNat) ∧
    (let s := ready [0x55, 0xFF]; checksum s.buf.toList 1 = s.readBuf 1) ∧
    (let s := ready [0x55, 0xCF]; checksum s.buf.toList 1 ≠ s.readBuf 1) ∧
    (let s := ready [0x55, 0xCF, 7, 0, 0, 0, 0, 0, 0, 0, 0x29]; checksum s.buf.toList 10 = s.readBuf 10) ∧
    (let s := ready [0x55, 0xCF, 0, 0, 0, 0, 0, 0, 0, 0, 0x31]; checksum s.buf.toList 10 ≠ s.readBuf 10) := by decide

theorem witness_ValidateIsChecksumAndLastFrame : ∀ L ∈ [(2 : Len), 11], 2 ≤ L.toNat ∧ L.toNat ≤ 11 := by decide

/-- No data byte (W3), and eight (W7). -/
theorem witness_FrameWithItsChecksumValidates :
    (ready [0x55, 0xCF, 0x30]).buf.toList.take (([] : List Byte).length + 3) =
      0x55 :: 0xCF :: [] ++ [checksum (0x55 :: 0xCF :: []) (2 + ([] : List Byte).length)] ∧
    (let data : List Byte := [1, 2, 3, 4, 5, 6, 7, 8]
     data.length ≤ 8 ∧
       (ready [0x55, 0xCF, 1, 2, 3, 4, 5, 6, 7, 8, 0x0C]).buf.toList.take (data.length + 3) =
         0x55 :: 0xCF :: data ++ [checksum (0x55 :: 0xCF :: data) (2 + data.length)]) := by decide

theorem witness_ReadersChangeNothing : (∃ t, exec .lastFrame State.reset = .next t) ∧
    (∃ t, exec (.checksum 11) State.reset = .next t) ∧ (∃ t, exec (.validate 2) State.reset = .next t) ∧
    (∃ t, exec (.validate 11) State.reset = .next t) := by
  exact ⟨⟨_, rfl⟩, ⟨_, rfl⟩, ⟨_, rfl⟩, ⟨_, rfl⟩⟩

/-- Between operations with an INIT to run, and inside a POLL with the eleventh byte to come and with a frame ready. -/
theorem witness_EveryStepKeepsTheInvariant :
    (∃ s t : State, Inv s ∧ step s = .next t ∧ s.poll = none) ∧
    (∃ s t : State, Inv s ∧ step s = .next t ∧ s.poll ≠ none ∧ s.len = 10) ∧
    (∃ s t : State, Inv s ∧ step s = .next t ∧ s.st = .frameReady) :=
  ⟨⟨{ State.reset with inbox := [.cmd 0x000] }, _, by constructor <;> decide, rfl, rfl⟩,
   ⟨during 0xCF .drain (accumulating [0x55, 0xCF, 1, 2, 3, 4, 5, 6, 7, 8] 0 0 [0x0C]), _,
     by constructor <;> decide, rfl, by decide, rfl⟩,
   ⟨during 0xCF .settle (ready [0x55, 0xCF]), _, by constructor <;> decide, rfl, rfl⟩⟩

theorem witness_InvariantGivesTheStatedOnes : ∃ s : State, Inv s ∧ s.poll = none ∧ s.len = 10 :=
  ⟨accumulating [0x55, 0xCF, 1, 2, 3, 4, 5, 6, 7, 8] 0 0 [], by constructor <;> decide, rfl, rfl⟩

/-- Each of the five refusals from a state with the invariant. -/
theorem witness_RefusalsAreTheHostsMistakes :
    ∀ p ∈ [((0x1CF : Cmd), Refusal.pollBeforeInit), (0x500, .reservedOpcode 5), (0x313, .reservedArgBits),
      (0x30C, .checksumOperand), (0x401, .validateOperand)],
    Inv { State.reset with inbox := [.cmd p.1] } ∧
      step { State.reset with inbox := [.cmd p.1] } = .refused p.2 := by
  simp only [List.forall_mem_cons]
  refine ⟨⟨?_, rfl⟩, ⟨?_, rfl⟩, ⟨?_, rfl⟩, ⟨?_, rfl⟩, ⟨?_, rfl⟩, by simp⟩ <;> constructor <;> decide

/-- Legal and illegal at the boundaries: POLL with and without `bound`, the operands 11 and 12 of CHECKSUM, 1, 2, 11 and
12 of VALIDATE, an operand with `arg[7:4]` not zero, the opcodes 4 and 5. -/
theorem witness_StepGoesOnExactlyAfterLegalCommands :
    (∀ w ∈ [(0x0FF : Cmd), 0x1CF, 0x2FF, 0x30B, 0x402, 0x40B],
      Inv { idle 0 [] with inbox := [.cmd w] } ∧ LegalCommand true w) ∧
    (∀ w ∈ [(0x30C : Cmd), 0x310, 0x401, 0x40C, 0x500, 0xFFF],
      Inv { idle 0 [] with inbox := [.cmd w] } ∧ ¬LegalCommand true w) ∧
    (Inv { State.reset with inbox := [.cmd 0x1CF] } ∧ ¬LegalCommand false 0x1CF) ∧
    (Inv (during 0xCF .drain (accumulating [0x55] 0 0 [0xCF])) ∧
      (during 0xCF .drain (accumulating [0x55] 0 0 [0xCF])).poll ≠ none) := by
  have inv (s : State) (w : Cmd) (h : Inv s) : Inv { s with inbox := [.cmd w] } :=
    h.congr rfl ⟨rfl, rfl, rfl, rfl, rfl, rfl⟩ rfl
  have hi : Inv (idle 0 []) := by constructor <;> decide
  refine ⟨fun w hw => ⟨inv _ w hi, ?_⟩, fun w hw => ⟨inv _ w hi, ?_⟩, ⟨inv State.reset _ ?_, ?_⟩, ?_, by decide⟩
  · simp only [List.mem_cons, List.not_mem_nil, or_false] at hw
    rcases hw with rfl | rfl | rfl | rfl | rfl | rfl <;> simp [LegalCommand, cmdOp, cmdArg]
  · simp only [List.mem_cons, List.not_mem_nil, or_false] at hw
    rcases hw with rfl | rfl | rfl | rfl | rfl | rfl <;> simp [LegalCommand, cmdOp, cmdArg]
  · constructor <;> decide
  · simp [LegalCommand, cmdOp]
  · constructor <;> decide

/-- Each change of `st` that the clauses speak of: entering Accumulating, FrameReady in both ways, and SearchingSync from
Accumulating and from FrameReady. -/
theorem witness_StateChangesAreThoseOfTheTable :
    (∃ t, exec (.bSyncAccept 0x55) (during 0xCF .drain (idle 0 [])) = .next t ∧ t.st = .accumulating) ∧
    (∃ t, exec (.bStore 0x0C) (during 0xCF .drain (accumulating [0x55, 0xCF, 1, 2, 3, 4, 5, 6, 7, 8] 0 0 [])) = .next t ∧
      t.st = .frameReady) ∧
    (∃ t, exec .tBreak (during 0xCF .drain (accumulating [0x55] 0 728 [])) = .next t ∧ t.st = .frameReady) ∧
    (∃ t, exec (.bPidReject 0x01) (during 0xCF .drain (accumulating [0x55] 0 0 [])) = .next t ∧ t.st = .searchingSync) ∧
    (∃ t, exec .init (accumulating [0x55] 0 0 []) = .next t ∧ t.st = .searchingSync) ∧
    (∃ t, exec .deliver (during 0xCF .settle (ready [0x55, 0xCF])) = .next t ∧ t.st = .searchingSync) ∧
    (∃ t, exec .dropShort (during 0xCF .settle (ready [0x55])) = .next t ∧ t.st = .searchingSync) ∧
    (∃ t, exec .init (ready [0x55]) = .next t ∧ t.st = .searchingSync) := by
  exact ⟨⟨_, rfl, rfl⟩, ⟨_, rfl, rfl⟩, ⟨_, rfl, rfl⟩, ⟨_, rfl, rfl⟩, ⟨_, rfl, rfl⟩, ⟨_, rfl, rfl⟩, ⟨_, rfl, rfl⟩,
    ⟨_, rfl, rfl⟩⟩

/-- `bound` set by INIT and cleared by the reset input; `last_len` written by a POLL, by the DELIVER of a POLL in progress
and by INIT. -/
theorem witness_RegistersChangeOnlyByTheirWriters :
    (∃ s t : State, step s = .next t ∧ s.bound = false ∧ t.bound = true) ∧
    (∃ s t : State, step s = .next t ∧ s.bound = true ∧ t.bound = false) ∧
    (∃ s t : State, step s = .next t ∧ t.lastLen ≠ s.lastLen ∧ t.lastLen = 3 ∧ s.poll = none) ∧
    (∃ s t : State, step s = .next t ∧ t.lastLen ≠ s.lastLen ∧ t.lastLen = 2 ∧ s.poll ≠ none) ∧
    (∃ s t : State, step s = .next t ∧ t.lastLen ≠ s.lastLen ∧ t.lastLen = 0) :=
  ⟨⟨{ State.reset with inbox := [.cmd 0x000] }, _, rfl, rfl, rfl⟩,
   ⟨{ idle 0 [] with inbox := [.reset] }, _, rfl, rfl, rfl⟩,
   ⟨{ accumulating [0x55, 0xCF, 0x01] 0 728 [] with inbox := [.cmd 0x1CF] }, _, rfl, by decide, rfl, rfl⟩,
   ⟨during 0xCF .settle (ready [0x55, 0xCF]), _, rfl, by decide, rfl, by decide⟩,
   ⟨{ idle 0 [] with lastLen := 3, inbox := [.cmd 0x000] }, _, rfl, by decide, rfl⟩⟩

end Sys2Proof.Tests
end

section
/-! PROOFS of the family on scope: the reset values, and the writers of the parameters, `bound` and `last_len`. -/

namespace Sys2Proof.Machine
open State

/-- The next input is taken, and is a command word that decodes to `i` (R61, R72; the input list is log 6). -/
def CommandComes (s : State) (i : Instr) : Prop :=
  s.poll = none ∧ ∃ w, s.inbox.head? = some (.cmd w) ∧ decodeCmd w = .ok i

/-- The next input is taken, and is the reset input (R190; the input list is log 6). -/
def ResetComes (s : State) : Prop := s.poll = none ∧ s.inbox.head? = some .reset

/-- The response is Complete with the length `last_len`, 2 to 11 (R24, R75). -/
def HandsOutLastLen (t : State) : Prop :=
  t.resp = some (.frame (.complete t.lastLen)) ∧ 2 ≤ t.lastLen.toNat ∧ t.lastLen.toNat ≤ 11

/-- A step of a POLL keeps the parameters and `bound`, and writes `last_len` only as DELIVER: the length of the ready frame,
handed out (R7, R24, R25, R111). -/
theorem execPollStep_writes {i : Instr} {s t : State} (hi : i.isHost = false) (h : exec i s = .next t) :
    t.cfg = s.cfg ∧ t.bound = s.bound ∧ (t.lastLen = s.lastLen ∨ HandsOutLastLen t ∧
      (∃ pid, s.poll = some ⟨pid, .settle⟩) ∧ s.st = .frameReady ∧ t.lastLen = s.len) := by
  cases i with
  | init | poll | lastFrame | checksum | validate => cases hi
  | bSyncAccept b =>
    obtain ⟨-, rfl⟩ := execBSyncAccept_next h
    exact ⟨rfl, rfl, .inl rfl⟩
  | bSyncDiscard b =>
    obtain ⟨-, rfl⟩ := execBSyncDiscard_next h
    exact ⟨rfl, rfl, .inl rfl⟩
  | bPidReject b =>
    obtain ⟨-, rfl⟩ := execBPidReject_next h
    exact ⟨rfl, rfl, .inl rfl⟩
  | bStore b =>
    obtain ⟨-, rfl⟩ := execBStore_next h
    simp
  | tBreak =>
    obtain ⟨-, -, rfl⟩ := execTBreak_next h
    obtain ⟨hcfg, -, -, -, hlast, hbound, -⟩ := breakCheck_frame s
    exact ⟨hcfg, hbound, .inl hlast⟩
  | deliver =>
    obtain ⟨⟨hpoll, hst, h2, h11⟩, rfl⟩ := execDeliver_next h
    exact ⟨rfl, rfl, .inr ⟨⟨rfl, h2, h11⟩, hpoll, hst, rfl⟩⟩
  | dropShort =>
    obtain ⟨-, rfl⟩ := execDropShort_next h
    exact ⟨rfl, rfl, .inl rfl⟩

/-- What a machine step inside a POLL writes of the parameters, `bound` and `last_len` (R7, R24, R25). -/
theorem step_inPoll_writes {s t : State} (hp : s.poll ≠ none) (h : step s = .next t) :
    t.cfg = s.cfg ∧ t.bound = s.bound ∧ (t.lastLen = s.lastLen ∨ HandsOutLastLen t ∧
      (∃ pid, s.poll = some ⟨pid, .settle⟩) ∧ s.st = .frameReady ∧ t.lastLen = s.len) := by
  rcases step_inPoll hp h with ⟨i, s', hi, -, -, rfl | rfl, he⟩ | ⟨-, rfl⟩
  · exact execPollStep_writes hi he
  · exact execPollStep_writes (s := s.rxPop) hi he
  · exact ⟨rfl, rfl, .inl rfl⟩

/-- A host operation keeps the parameters; INIT sets `bound` and clears `last_len`, and of the others only POLL writes one
of the two, `last_len`, to the length it hands out (R7, R24, R25, R58, R100). -/
theorem execHost_writes {i : Instr} {s t : State} (hi : i.isHost = true) (h : exec i s = .next t) :
    t.cfg = s.cfg ∧ (i = .init ∧ t.bound = true ∧ t.lastLen = 0 ∨
      t.bound = s.bound ∧ (t.lastLen = s.lastLen ∨ HandsOutLastLen t ∧ ∃ pid, i = .poll pid)) := by
  cases i with
  | bSyncAccept | bSyncDiscard | bPidReject | bStore | tBreak | deliver | dropShort => cases hi
  | init =>
    obtain rfl := Host.Outcome.next.inj h
    exact ⟨rfl, .inl ⟨rfl, rfl, rfl⟩⟩
  | poll pid =>
    obtain ⟨-, hr, rfl⟩ := execPoll_next h
    obtain ⟨hcfg, hbound, -, -, hlast⟩ := pollPhases_frame pid hr
    exact ⟨hcfg, .inr ⟨hbound, hlast.imp_right fun hout => ⟨hout, pid, rfl⟩⟩⟩
  | lastFrame =>
    obtain ⟨r, l, rfl⟩ := reader_next (.inl rfl) h
    exact ⟨rfl, .inr ⟨rfl, .inl rfl⟩⟩
  | checksum n =>
    obtain ⟨r, l, rfl⟩ := reader_next (.inr (.inl ⟨n, rfl⟩)) h
    exact ⟨rfl, .inr ⟨rfl, .inl rfl⟩⟩
  | validate L =>
    obtain ⟨r, l, rfl⟩ := reader_next (.inr (.inr ⟨L, rfl⟩)) h
    exact ⟨rfl, .inr ⟨rfl, .inl rfl⟩⟩

/-- What a machine step between operations writes of the parameters, `bound` and `last_len`: INIT and the reset input write
both registers, a POLL that hands out a frame writes `last_len`, and nothing else writes (R7, R24, R25, R100, R190). -/
theorem step_between_writes {s t : State} (hp : s.poll = none) (h : step s = .next t) :
    t.cfg = s.cfg ∧ (CommandComes s .init ∧ t.bound = true ∧ t.lastLen = 0 ∨
      ResetComes s ∧ t.bound = false ∧ t.lastLen = 0 ∨
      t.bound = s.bound ∧ (t.lastLen = s.lastLen ∨ HandsOutLastLen t ∧ ∃ pid, CommandComes s (.poll pid))) := by
  rcases step_between hp h with ⟨w, rest, i, hin, hd, he⟩ | ⟨b, rest, -, rfl⟩ | ⟨d, rest, -, rfl⟩ | ⟨rest, hin, rfl⟩ |
    ⟨-, rfl⟩
  · have hcomes : CommandComes s i := ⟨hp, w, by rw [hin]; rfl, hd⟩
    obtain ⟨hcfg, ⟨rfl, hbound, hlast⟩ | ⟨hbound, hlast⟩⟩ := execHost_writes (isHost_of_decodeCmd hd) he
    · exact ⟨hcfg, .inl ⟨hcomes, hbound, hlast⟩⟩
    · refine ⟨hcfg, .inr (.inr ⟨hbound, hlast.imp_right ?_⟩)⟩
      rintro ⟨hout, pid, rfl⟩
      exact ⟨hout, pid, hcomes⟩
  · exact ⟨rfl, .inr (.inr ⟨rfl, .inl rfl⟩)⟩
  · exact ⟨rfl, .inr (.inr ⟨rfl, .inl rfl⟩)⟩
  · exact ⟨rfl, .inr (.inl ⟨⟨hp, by rw [hin]; rfl⟩, rfl, rfl⟩)⟩
  · exact ⟨rfl, .inr (.inr ⟨rfl, .inl rfl⟩)⟩

/-- All writers of the parameters, `bound` and `last_len`, over every step (R7, R24, R25, R100, R190). -/
theorem step_writes {s t : State} (h : step s = .next t) :
    t.cfg = s.cfg ∧ (CommandComes s .init ∧ t.bound = true ∧ t.lastLen = 0 ∨
      ResetComes s ∧ t.bound = false ∧ t.lastLen = 0 ∨
      t.bound = s.bound ∧ (t.lastLen = s.lastLen ∨ HandsOutLastLen t ∧ ((∃ pid, CommandComes s (.poll pid)) ∨
        ∃ pid, s.poll = some ⟨pid, .settle⟩ ∧ s.st = .frameReady ∧ t.lastLen = s.len))) := by
  by_cases hp : s.poll = none
  · obtain ⟨hcfg, hinit | hreset | ⟨hbound, hlast⟩⟩ := step_between_writes hp h
    · exact ⟨hcfg, .inl hinit⟩
    · exact ⟨hcfg, .inr (.inl hreset)⟩
    · exact ⟨hcfg, .inr (.inr ⟨hbound, hlast.imp_right (And.imp_right .inl)⟩)⟩
  · obtain ⟨hcfg, hbound, hlast⟩ := step_inPoll_writes hp h
    refine ⟨hcfg, .inr (.inr ⟨hbound, hlast.imp_right ?_⟩)⟩
    rintro ⟨hout, ⟨pid, hpoll⟩, hready⟩
    exact ⟨hout, .inr ⟨pid, hpoll, hready⟩⟩

/-- Settles O59: each change of a register meets one of the writers that `step_writes` lists. -/
theorem registersChangeOnlyByTheirWriters : Obligations.RegistersChangeOnlyByTheirWriters := by
  intro s t h comes resets
  obtain ⟨hcfg, ⟨hinit, hbound, hlast⟩ | ⟨hreset, hbound, hlast⟩ | ⟨hbound, hlast⟩⟩ := step_writes h
  · exact ⟨hcfg, fun _ _ => hinit, fun _ hf => by simp [hbound] at hf, fun _ => .inl ⟨hlast, .inl hinit⟩⟩
  · exact ⟨hcfg, fun _ ht => by simp [hbound] at ht, fun _ _ => hreset, fun _ => .inl ⟨hlast, .inr hreset⟩⟩
  · refine ⟨hcfg, fun hf ht => by simp [hbound, hf] at ht, fun ht hf => by simp [hbound, ht] at hf, fun hne => .inr ?_⟩
    obtain ⟨⟨hresp, h2, h11⟩, hwriter⟩ := hlast.resolve_left hne
    exact ⟨hresp, h2, h11, hwriter⟩

/-- Settles O1: `State.reset` is written with these values, field by field. -/
theorem resetStateHoldsTheResetValues : Obligations.ResetStateHoldsTheResetValues :=
  ⟨rfl, rfl, rfl, rfl, rfl, rfl, rfl, rfl, rfl, rfl, rfl, rfl, rfl, rfl⟩

end Sys2Proof.Machine
end

section
/-! PROOFS of the family on the state: the inputs of the environment, the frames of the steps of a POLL and of a whole POLL,
the expected PID of a kept frame, and the invariant, at reset and over every step. -/

namespace Sys2Proof.Machine
open State

/-! ## The read of one buffer byte -/

theorem readBuf_of_buf_eq {s t : State} (h : t.buf = s.buf) (j : Nat) : t.readBuf j = s.readBuf j := by
  rw [readBuf, readBuf, h]

/-- A write leaves every other index (R52). -/
theorem readBuf_of_write_ne {s t : State} {i j : Nat} {b : Byte} (h : t.buf = s.buf.setIfInBounds i b) (hj : j ≠ i) :
    t.readBuf j = s.readBuf j := by
  rw [readBuf, readBuf, h, Vector.getElem?_setIfInBounds_ne hj.symm]

/-! ## A whole POLL -/

/-- From a bound state of the rules with `len = 0` in SearchingSync, a POLL is what the transition table gives (R114). -/
theorem execPoll_eq_pollByTable {s : State} (pid : Byte) (hb : s.bound = true) (hr : RegistersInRules s)
    (hss : s.st = .searchingSync → s.len = 0) : exec (.poll pid) s = .next (pollByTable pid s) := by
  have hlenNat : s.st = .searchingSync → s.len.toNat = 0 := fun hs => by rw [hss hs]; rfl
  obtain ⟨-, -, hle, -, -⟩ := drainByTable_rules pid s.rxq s.st s.len.toNat hlenNat hr.2 hr.1
  rw [execPoll_eq hb hr, pollPhases, drain_opened s pid hr hss, finish_drained s pid _ hle, pollByTable]

theorem toNat_ofNat_of_le_maxFrame {n : Nat} (h : n ≤ 11) : (BitVec.ofNat 4 n).toNat = n := by
  rw [BitVec.toNat_ofNat]
  omega

/-- After a ready frame the decoder searches, and `last_len` is the length handed out or as it was (R111, R112). -/
theorem finishByTable_of_ready {s : State} {d : Drained} (h : readyByTable s d = true) :
    (finishByTable s d).st = .searchingSync ∧ (finishByTable s d).len = 0 ∧
    (finishByTable s d).lastLen = if 2 ≤ d.len then BitVec.ofNat 4 d.len else s.lastLen := by
  simp [finishByTable, h]

/-- Without a ready frame phase 1 has the last word on `st` and `len`, and `last_len` stays (R101). -/
theorem finishByTable_of_not_ready {s : State} {d : Drained} (h : readyByTable s d = false) :
    d.st ≠ .frameReady ∧ (finishByTable s d).st = d.st ∧ (finishByTable s d).len = BitVec.ofNat 4 d.len ∧
    (finishByTable s d).lastLen = s.lastLen := by
  refine ⟨fun hst => ?_, by simp [finishByTable, h]⟩
  simp [readyByTable, hst] at h

/-- The result is Complete exactly of a ready frame of two bytes or more (R75, R111, R112). -/
theorem finishByTable_resp (s : State) (d : Drained) :
    (finishByTable s d).resp = some (.frame .incomplete) ∨
    (finishByTable s d).resp = some (.frame (.complete (BitVec.ofNat 4 d.len))) ∧ 2 ≤ d.len := by
  by_cases h : readyByTable s d = true ∧ 2 ≤ d.len
  · exact .inr ⟨by simp [finishByTable, h], h.2⟩
  · exact .inl (by simp only [finishByTable, if_neg h])

/-- What phase 1 must lead to for a POLL to end between operations (R27, R28, R118). -/
structure DrainedInRules (buf : Vector Byte 11) (d : Drained) : Prop where
  searching : d.st = .searchingSync → d.len = 0
  accumulating : d.st = .accumulating → 1 ≤ d.len ∧ d.len ≤ 10
  len_le : d.len ≤ 11
  sync : 1 ≤ d.len → (storeAll buf d.stored)[0]?.getD 0x00 = 0x55

/-- Phase 1 leads there from every state between operations. -/
theorem BetweenOperations.drained {s : State} (h : BetweenOperations s) (pid : Byte) :
    DrainedInRules s.buf (drainByTable pid s.st s.len.toNat s.rxq) := by
  obtain ⟨hle, hacc⟩ := inRules_of_between h
  obtain ⟨hsearch, -, -, hsync, -⟩ := h
  have hss : s.st = .searchingSync → s.len.toNat = 0 := fun hs => by rw [hsearch.1 hs]; rfl
  obtain ⟨hss', hacc', hle', -, -⟩ := drainByTable_rules pid s.rxq s.st s.len.toNat hss hacc hle
  exact ⟨hss', hacc', hle', storeAll_sync pid s.rxq s.st s.len.toNat s.buf hss hacc hsync⟩

/-- The break check and the completion end between operations (R28). -/
theorem DrainedInRules.finish_between {s : State} {d : Drained} (h : DrainedInRules s.buf d)
    (hlast : s.lastLen = 0 ∨ 2 ≤ s.lastLen.toNat ∧ s.lastLen.toNat ≤ 11) : BetweenOperations (finishByTable s d) := by
  obtain ⟨hsearch, hacc, hle, hsync⟩ := h
  have hnat := toNat_ofNat_of_le_maxFrame hle
  cases hready : readyByTable s d with
  | true =>
    obtain ⟨hst, hlen, hll⟩ := finishByTable_of_ready hready
    refine ⟨by simp [hst, hlen], by simp [hst, hlen], by simp [hst], by simp [hlen], ?_⟩
    rw [hll]
    split
    · exact .inr (by omega)
    · exact hlast
  | false =>
    obtain ⟨hnot, hst, hlen, hll⟩ := finishByTable_of_not_ready hready
    have hzero : BitVec.ofNat 4 d.len = 0 ↔ d.len = 0 := by rw [← BitVec.toNat_inj, hnat]; rfl
    rw [BetweenOperations, hst, hlen, hll, hnat, hzero]
    refine ⟨⟨hsearch, fun h0 => ?_⟩, ⟨hacc, fun h1 => ?_⟩, hnot, hsync, hlast⟩
    · cases hd : d.st with
      | searchingSync => rfl
      | accumulating => have := hacc hd; omega
      | frameReady => exact absurd hd hnot
    · cases hd : d.st with
      | searchingSync => have := hsearch hd; omega
      | accumulating => rfl
      | frameReady => exact absurd hd hnot

/-- A POLL from a bound state between operations is the table's, and ends between operations. -/
theorem execPoll_between {s : State} (pid : Byte) (hb : s.bound = true) (h : BetweenOperations s) :
    exec (.poll pid) s = .next (pollByTable pid s) ∧ BetweenOperations (pollByTable pid s) := by
  have ⟨hsearch, _, _, _, hlast⟩ := h
  exact ⟨execPoll_eq_pollByTable pid hb (inRules_of_between h) hsearch.1, (h.drained pid).finish_between hlast⟩

/-- A frame of two bytes or more after phase 1 has the operand at index 1, if it had before (R27 (b), R107). -/
theorem storeAll_pid {pid : Byte} (hpid : pid ≠ 0x00) (avail : List Byte) (st : DecoderState) (len : Nat)
    (buf : Vector Byte 11) (hacc : st = .accumulating → 1 ≤ len ∧ len ≤ 10)
    (hs : 2 ≤ len → buf[1]?.getD 0x00 = pid) :
    2 ≤ (drainByTable pid st len avail).len →
      (storeAll buf (drainByTable pid st len avail).stored)[1]?.getD 0x00 = pid := by
  induction avail generalizing st len buf with
  | nil => exact hs
  | cons b rest ih =>
    cases st with
    | frameReady => rw [drainByTable_ready]; exact hs
    | searchingSync =>
      by_cases hb : b = 0x55
      · subst hb
        rw [drainByTable_cons (by decide) (byteRow_sync pid len rest)]
        exact ih .accumulating 1 (buf.setIfInBounds 0 0x55) (by simp) (by simp)
      · rw [drainByTable_cons (by decide) (byteRow_discard pid len rest hb)]
        exact ih .searchingSync 0 buf (by simp) (by simp)
    | accumulating =>
      obtain ⟨h1, h10⟩ := hacc rfl
      by_cases hrej : len = 1 ∧ pid ≠ 0x00 ∧ b ≠ pid
      · rw [drainByTable_cons (by decide) (byteRow_reject rest hrej)]
        exact ih .searchingSync 0 buf (by simp) (by simp)
      · have hkeep : (buf.setIfInBounds len b)[1]?.getD 0x00 = pid := by
          by_cases hl : len = 1
          · subst hl
            have hb : b = pid := by_contra fun hne => hrej ⟨rfl, hpid, hne⟩
            simp [hb]
          · rw [Vector.getElem?_setIfInBounds_ne hl]
            exact hs (by omega)
        by_cases h9 : len ≤ 9
        · rw [drainByTable_cons (by decide) (byteRow_store rest hrej h9)]
          exact ih .accumulating (len + 1) (buf.setIfInBounds len b) (by simp; omega) fun _ => hkeep
        · obtain rfl : len = 10 := by omega
          rw [drainByTable_cons (by decide) (byteRow_eleventh rest h9)]
          exact ih .frameReady 11 (buf.setIfInBounds 10 b) (by simp) fun _ => hkeep

/-- A frame that a POLL keeps in progress at two bytes or more, or completes, had two bytes or more after phase 1. -/
theorem two_le_of_kept {s : State} {d : Drained} (hle : d.len ≤ 11)
    (h : 2 ≤ (finishByTable s d).len.toNat ∨ ∃ n, (finishByTable s d).resp = some (.frame (.complete n))) :
    2 ≤ d.len := by
  rcases h with hlen | ⟨n, hn⟩
  · cases hready : readyByTable s d with
    | true =>
      obtain ⟨-, hzero, -⟩ := finishByTable_of_ready hready
      simp [hzero] at hlen
    | false =>
      obtain ⟨-, -, hl, -⟩ := finishByTable_of_not_ready hready
      rwa [hl, toNat_ofNat_of_le_maxFrame hle] at hlen
  · rcases finishByTable_resp s d with hr | ⟨-, h2⟩
    · simp [hr] at hn
    · exact h2

/-! ## The invariant -/

/-- Between operations the invariant is R28 (a) to (e). -/
theorem Inv.between {s : State} (h : Inv s) (hp : s.poll = none) : BetweenOperations s := by
  have hnot : s.st ≠ .frameReady := fun hs => h.readyInPoll hs hp
  refine ⟨⟨h.searching, fun h0 => ?_⟩, ⟨h.accumulating, fun h1 => ?_⟩, hnot, h.sync, h.lastLen⟩
  · cases hs : s.st with
    | searchingSync => rfl
    | accumulating => have := h.accumulating hs; simp [h0] at this
    | frameReady => exact absurd hs hnot
  · cases hs : s.st with
    | searchingSync => simp [h.searching hs] at h1
    | accumulating => rfl
    | frameReady => exact absurd hs hnot

/-- A bound block between operations has the invariant. -/
theorem BetweenOperations.inv {s : State} (h : BetweenOperations s) (hc : s.cfg.Legal) (hb : s.bound = true)
    (hp : s.poll = none) : Inv s := by
  obtain ⟨hsearch, hacc, hnot, hsync, hlast⟩ := h
  exact {
    legal := hc
    searching := hsearch.1
    accumulating := hacc.1
    ready := fun hs => absurd hs hnot
    readyInPoll := fun hs => absurd hs hnot
    sync := hsync
    lastLen := hlast
    unbound := fun hf => by simp [hb] at hf
    pollBound := fun hne => absurd hp hne }

/-- The reset values have the invariant, bound or not (R35, R100, R190). -/
theorem inv_clearRegisters {s : State} (hc : s.cfg.Legal) (hp : s.poll = none) (x : Bool) : Inv (s.clearRegisters x) where
  legal := hc
  searching := fun _ => rfl
  accumulating := fun hs => by simp at hs
  ready := fun hs => by simp at hs
  readyInPoll := fun hs => by simp at hs
  sync := fun h1 => by simp at h1
  lastLen := .inl rfl
  unbound := fun _ => ⟨rfl, rfl, rfl, rfl⟩
  pollBound := fun hne => absurd hp hne

/-- The abort keeps the invariant (R168). -/
theorem Inv.toSearching {s : State} (h : Inv s) : Inv s.toSearching where
  legal := h.legal
  searching := fun _ => rfl
  accumulating := fun hs => by simp at hs
  ready := fun hs => by simp at hs
  readyInPoll := fun hs => by simp at hs
  sync := fun h1 => by simp at h1
  lastLen := h.lastLen
  unbound := fun hf => by
    obtain ⟨hbuf, -, htl, hll⟩ := h.unbound hf
    exact ⟨hbuf, rfl, htl, hll⟩
  pollBound := h.pollBound

/-- Returning from a POLL keeps the invariant where no frame is ready (R101). -/
theorem Inv.closePoll {s : State} (h : Inv s) (hst : s.st ≠ .frameReady) (r : FrameResult) : Inv (s.closePoll r) where
  legal := h.legal
  searching := h.searching
  accumulating := h.accumulating
  ready := h.ready
  readyInPoll := fun hs => absurd hs hst
  sync := h.sync
  lastLen := h.lastLen
  unbound := h.unbound
  pollBound := fun hne => absurd rfl hne

/-! Inside a POLL the block is bound, so the clause on its reset values is empty. -/
section InPoll
variable {s : State} (h : Inv s) (hp : s.poll ≠ none)
include h hp

/-- B_SYNC_ACCEPT of the sync byte (R106). -/
theorem Inv.syncAccept : Inv (s.syncAccept 0x55) where
  legal := h.legal
  searching := fun hs => by simp [State.syncAccept] at hs
  accumulating := fun _ => by simp [State.syncAccept]
  ready := fun hs => by simp [State.syncAccept] at hs
  readyInPoll := fun _ => hp
  sync := fun _ => by simp [State.syncAccept, readBuf]
  lastLen := h.lastLen
  unbound := fun hf => by simp [State.syncAccept, h.pollBound hp] at hf
  pollBound := fun _ => h.pollBound hp

/-- B_STORE, the eleventh byte included (R108, R109). -/
theorem Inv.storeByte (hst : s.st = .accumulating) (b : Byte) : Inv (s.storeByte b) := by
  obtain ⟨h1, h10⟩ := h.accumulating hst
  have hlen : (s.len + 1).toNat = s.len.toNat + 1 := by rw [BitVec.toNat_add]; simp; omega
  have heleven : s.len + 1 = 11 ↔ s.len.toNat = 10 := by rw [← BitVec.toNat_inj, hlen]; simp
  have hst' : (s.storeByte b).st = if s.len.toNat = 10 then .frameReady else .accumulating := by
    simp only [storeByte_st, heleven, hst]
  have hsync : (s.storeByte b).readBuf 0 = 0x55 := by
    rw [readBuf_of_write_ne (storeByte_buf s b) (by omega)]
    exact h.sync h1
  constructor
  · rw [storeByte_cfg]; exact h.legal
  · rw [hst']; split <;> simp
  · rw [hst', storeByte_len, hlen]
    split
    · simp
    · omega
  · rw [storeByte_len, hlen]; omega
  · rw [storeByte_poll]; exact fun _ => hp
  · exact fun _ => hsync
  · rw [storeByte_lastLen]; exact h.lastLen
  · simp [h.pollBound hp]
  · rw [storeByte_bound]; exact fun _ => h.pollBound hp

/-- T_BREAK: where it fires, a frame in progress becomes the ready one (R110). -/
theorem Inv.breakCheck : Inv s.breakCheck := by
  have hsettle : s.clockTick.settlePhase.poll ≠ none := by simpa using hp
  have hpast : Inv s.clockTick.settlePhase :=
    { h with readyInPoll := fun _ => hsettle, pollBound := fun _ => h.pollBound hp }
  by_cases hsil : s.clockTick.silent = true
  · obtain ⟨hst, -⟩ := (clockTick_silent s).1 hsil
    obtain ⟨h1, h10⟩ := h.accumulating hst
    rw [breakCheck_of_silent hsil]
    exact { hpast with
      searching := fun hs => by simp at hs
      accumulating := fun hs => by simp at hs
      ready := fun _ => ⟨h1, Nat.le_succ_of_le h10⟩
      readyInPoll := fun _ => hsettle }
  · rw [breakCheck_of_not_silent hsil]
    exact hpast

end InPoll

/-- DELIVER of a ready frame (R111). -/
theorem Inv.deliver {s : State} (h : Inv s) (h2 : 2 ≤ s.len.toNat) (h11 : s.len.toNat ≤ 11) (hb : s.bound = true) :
    Inv s.deliver :=
  Inv.closePoll (s := { s.toSearching with lastLen := s.len })
    { h.toSearching with lastLen := .inr ⟨h2, h11⟩, unbound := fun hf => by simp [hb] at hf } (by simp) _

/-- Every step of a POLL keeps the invariant. -/
theorem execPollStep_keeps_inv {i : Instr} {s t : State} (hi : i.isHost = false) (h : Inv s)
    (he : exec i s = .next t) : Inv t := by
  cases i with
  | init | poll | lastFrame | checksum | validate => cases hi
  | bSyncAccept b =>
    obtain ⟨⟨⟨pid, hp⟩, -, rfl⟩, rfl⟩ := execBSyncAccept_next he
    exact h.syncAccept (Option.ne_none_iff_exists'.2 ⟨_, hp⟩)
  | bSyncDiscard b =>
    obtain ⟨-, rfl⟩ := execBSyncDiscard_next he
    exact h.congr rfl ⟨rfl, rfl, rfl, rfl, rfl, rfl⟩ rfl
  | bPidReject b =>
    obtain ⟨-, rfl⟩ := execBPidReject_next he
    exact h.toSearching.congr rfl ⟨rfl, rfl, rfl, rfl, rfl, rfl⟩ rfl
  | bStore b =>
    obtain ⟨⟨pid, hp, hst, -, -⟩, rfl⟩ := execBStore_next he
    exact h.storeByte (Option.ne_none_iff_exists'.2 ⟨_, hp⟩) hst b
  | tBreak =>
    obtain ⟨⟨pid, hp⟩, -, rfl⟩ := execTBreak_next he
    exact h.breakCheck (Option.ne_none_iff_exists'.2 ⟨_, hp⟩)
  | deliver =>
    obtain ⟨⟨⟨pid, hp⟩, -, h2, h11⟩, rfl⟩ := execDeliver_next he
    exact h.deliver h2 h11 (h.pollBound (Option.ne_none_iff_exists'.2 ⟨_, hp⟩))
  | dropShort =>
    obtain ⟨-, rfl⟩ := execDropShort_next he
    exact (h.toSearching.closePoll (by simp) .incomplete).congr rfl ⟨rfl, rfl, rfl, rfl, rfl, rfl⟩ rfl

/-- LASTFRAME, CHECKSUM and VALIDATE keep the invariant (R58, R164). -/
theorem reader_keeps_inv {i : Instr} {s t : State}
    (hi : i = .lastFrame ∨ (∃ n, i = .checksum n) ∨ ∃ L, i = .validate L) (h : Inv s) (he : exec i s = .next t) :
    Inv t := by
  obtain ⟨r, l, rfl⟩ := reader_next hi he
  exact h.congr rfl ⟨rfl, rfl, rfl, rfl, rfl, rfl⟩ rfl

/-- Every operation of the host, run between operations, keeps the invariant. -/
theorem execHost_keeps_inv {i : Instr} {s t : State} (hi : i.isHost = true) (hp : s.poll = none) (h : Inv s)
    (he : exec i s = .next t) : Inv t := by
  cases i with
  | bSyncAccept | bSyncDiscard | bPidReject | bStore | tBreak | deliver | dropShort => cases hi
  | init =>
    obtain rfl := Host.Outcome.next.inj he
    exact inv_clearRegisters (s := s.beginOp) h.legal hp true
  | poll pid =>
    obtain ⟨hb, -, -⟩ := execPoll_next he
    obtain ⟨htable, hbetween⟩ := execPoll_between pid hb (h.between hp)
    obtain rfl := Host.Outcome.next.inj (htable.symm.trans he)
    exact hbetween.inv h.legal hb rfl
  | lastFrame => exact reader_keeps_inv (.inl rfl) h he
  | checksum n => exact reader_keeps_inv (.inr (.inl ⟨n, rfl⟩)) h he
  | validate L => exact reader_keeps_inv (.inr (.inr ⟨L, rfl⟩)) h he

/-- A step inside a POLL keeps the invariant. -/
theorem step_inPoll_keeps_inv {s t : State} (hp : s.poll ≠ none) (h : Inv s) (hstep : step s = .next t) : Inv t := by
  rcases step_inPoll hp hstep with ⟨i, s', hi, -, -, rfl | rfl, he⟩ | ⟨hst, rfl⟩
  · exact execPollStep_keeps_inv hi h he
  · exact execPollStep_keeps_inv (s := s.rxPop) hi (h.congr rfl ⟨rfl, rfl, rfl, rfl, rfl, rfl⟩ rfl) he
  · exact h.closePoll hst .incomplete

/-- A step between operations keeps the invariant. -/
theorem step_between_keeps_inv {s t : State} (hp : s.poll = none) (h : Inv s) (hstep : step s = .next t) : Inv t := by
  have htaken (rest : List Input) : Inv { s with inbox := rest } := h.congr rfl ⟨rfl, rfl, rfl, rfl, rfl, rfl⟩ rfl
  rcases step_between hp hstep with ⟨w, rest, i, -, hd, he⟩ | ⟨b, rest, -, rfl⟩ | ⟨d, rest, -, rfl⟩ | ⟨rest, -, rfl⟩ |
    ⟨-, rfl⟩
  · exact execHost_keeps_inv (s := { s with inbox := rest }) (isHost_of_decodeCmd hd) hp (htaken rest) he
  · exact (htaken rest).congr rfl ⟨rfl, rfl, rfl, rfl, rfl, rfl⟩ rfl
  · exact (htaken rest).congr rfl ⟨rfl, rfl, rfl, rfl, rfl, rfl⟩ rfl
  · exact inv_clearRegisters (s := { s with inbox := rest, resp := none, trace := [], poll := none }) h.legal rfl false
  · exact h

/-! ## The statements -/

/-- Settles O55: inside a POLL by the steps it is made of, between operations by the input that is taken. -/
theorem everyStepKeepsTheInvariant : Obligations.EveryStepKeepsTheInvariant := by
  intro s t h hstep
  by_cases hp : s.poll = none
  · exact step_between_keeps_inv hp h hstep
  · exact step_inPoll_keeps_inv hp h hstep

/-- Settles O21: each of the seven steps by its effect; only B_SYNC_ACCEPT and B_STORE write the buffer. -/
theorem pollStepsKeepTheRest : Obligations.PollStepsKeepTheRest := by
  intro i s t hi he
  cases i with
  | init | poll | lastFrame | checksum | validate => cases hi
  | bSyncAccept b =>
    obtain ⟨-, rfl⟩ := execBSyncAccept_next he
    exact ⟨fun j hj _ => readBuf_of_write_ne rfl (hj b rfl), rfl, rfl, rfl, rfl, fun _ => rfl,
      fun hne _ => absurd rfl (hne b)⟩
  | bSyncDiscard b =>
    obtain ⟨-, rfl⟩ := execBSyncDiscard_next he
    exact ⟨fun _ _ _ => rfl, rfl, rfl, rfl, rfl, fun _ => rfl, fun _ _ => rfl⟩
  | bPidReject b =>
    obtain ⟨-, rfl⟩ := execBPidReject_next he
    exact ⟨fun _ _ _ => rfl, rfl, rfl, rfl, rfl, fun _ => rfl, fun _ _ => rfl⟩
  | bStore b =>
    obtain ⟨-, rfl⟩ := execBStore_next he
    exact ⟨fun j _ hj => readBuf_of_write_ne (storeByte_buf s b) (hj b rfl), storeByte_cfg s b, storeByte_bound s b,
      storeByte_rxq s b, storeByte_inbox s b, fun _ => storeByte_lastLen s b, fun _ hne => absurd rfl (hne b)⟩
  | tBreak =>
    obtain ⟨-, -, rfl⟩ := execTBreak_next he
    obtain ⟨hcfg, hbuf, -, htl, hll, hbound, hrxq, hinbox⟩ := breakCheck_frame s
    exact ⟨fun j _ _ => readBuf_of_buf_eq hbuf j, hcfg, hbound, hrxq, hinbox, fun _ => hll, fun _ _ => htl⟩
  | deliver =>
    obtain ⟨-, rfl⟩ := execDeliver_next he
    exact ⟨fun _ _ _ => rfl, rfl, rfl, rfl, rfl, fun hne => absurd rfl hne, fun _ _ => rfl⟩
  | dropShort =>
    obtain ⟨-, rfl⟩ := execDropShort_next he
    exact ⟨fun _ _ _ => rfl, rfl, rfl, rfl, rfl, fun _ => rfl, fun _ _ => rfl⟩

/-- Settles O29: the POLL is the table's, and the length handed out is that of the drained frame, at most 11. -/
theorem pollEndsBetweenOperations : Obligations.PollEndsBetweenOperations := by
  intro s pid hb h
  obtain ⟨htable, hbetween⟩ := execPoll_between pid hb h
  have hle := (h.drained pid).len_le
  rcases finishByTable_resp s (drainByTable pid s.st s.len.toNat s.rxq) with hresp | ⟨hresp, h2⟩
  · exact ⟨_, _, htable, rfl, hbetween, hresp, .inl rfl⟩
  · refine ⟨_, _, htable, rfl, hbetween, hresp, .inr ⟨_, rfl, ?_⟩⟩
    rw [toNat_ofNat_of_le_maxFrame hle]
    exact ⟨h2, hle⟩

/-- Settles O30: the frame of the three phases, and the buffer as the table's stores leave it. -/
theorem pollKeepsTheRest : Obligations.PollKeepsTheRest := by
  intro s pid hb hr hss
  obtain ⟨hcfg, hbound, hinbox, -, hlast⟩ := pollPhases_frame pid hr
  have htable : s.pollPhases pid = pollByTable pid s :=
    Host.Outcome.next.inj ((execPoll_eq hb hr).symm.trans (execPoll_eq_pollByTable pid hb hr hss))
  refine ⟨_, execPoll_eq hb hr, hcfg, hbound, hinbox, hlast.imp_right And.left, fun j hj => ?_⟩
  rw [htable]
  exact congrArg (·.getD 0x00) (storeAll_of_notMem s.buf _ j hj)

/-- Settles O34: two bytes or more after phase 1 have the sync byte and the operand at their places. -/
theorem keptFrameHasTheExpectedPid : Obligations.KeptFrameHasTheExpectedPid := by
  intro s pid hb hst hlen hpid
  have hnat : s.len.toNat = 0 := by rw [hlen]; rfl
  have hacc : s.st = .accumulating → 1 ≤ s.len.toNat ∧ s.len.toNat ≤ 10 := fun hs => by simp [hst] at hs
  have hr : RegistersInRules s := ⟨by omega, hacc⟩
  refine ⟨_, execPoll_eq_pollByTable pid hb hr fun _ => hlen, fun hkept => ?_⟩
  obtain ⟨-, -, hle, -, -⟩ := drainByTable_rules pid s.rxq s.st s.len.toNat (fun _ => hnat) hacc (by omega)
  have h2 := two_le_of_kept hle hkept
  exact ⟨storeAll_sync pid s.rxq s.st s.len.toNat s.buf (fun _ => hnat) hacc (by omega) (by omega),
    storeAll_pid hpid s.rxq s.st s.len.toNat s.buf hacc (by omega) h2⟩

/-- Settles O56: without a POLL in progress no frame is ready, and `len` decides the state. -/
theorem invariantGivesTheStatedOnes : Obligations.InvariantGivesTheStatedOnes :=
  fun _ h hp => h.between hp

/-- Settles O12: between operations `fetch` takes the head of the input list and runs no instruction for it. -/
theorem environmentTouchesOnlyQueueAndClock : Obligations.EnvironmentTouchesOnlyQueueAndClock := by
  intro s hp
  have hfetch : fetch s = fetchInput s := by rw [fetch, hp]
  refine ⟨fun b rest hin => ?_, fun d rest hin => ?_, fun hin => ?_⟩
  · rw [step, hfetch, fetchInput, hin]; rfl
  · rw [step, hfetch, fetchInput, hin]; rfl
  · rw [step, hfetch, fetchInput, hin]; rfl

/-- Settles O54: the reset state holds the reset values, and the default threshold is not 0. -/
theorem resetSatisfiesTheInvariant : Obligations.ResetSatisfiesTheInvariant :=
  inv_clearRegisters (s := State.reset) (by decide) rfl false

end Sys2Proof.Machine
end

section
/-! PROOFS of the family on the frame buffer and the environment's interface: the command that is run, what a POLL in
progress does not take, the bytes a POLL appends, and the frame of the three readers. -/

namespace Sys2Proof.Machine
open State

/-- Inside a POLL a step takes no input: the steps of a POLL, the pop and the plain return keep the input list (R61). -/
theorem step_inPoll_inbox {s t : State} (hp : s.poll ≠ none) (h : step s = .next t) : t.inbox = s.inbox := by
  rcases step_inPoll hp h with ⟨i, s', hi, -, -, hs', he⟩ | ⟨-, rfl⟩
  · obtain ⟨-, -, -, -, hinbox, -⟩ := pollStepsKeepTheRest i s' t hi he
    rcases hs' with rfl | rfl
    · exact hinbox
    · exact hinbox
  · rfl

/-- What a reader answers does not depend on the response and the labels of the operation before it (R29, R161). -/
theorem exec_reader_congr {i : Instr} (hi : i = .lastFrame ∨ (∃ n, i = .checksum n) ∨ ∃ L, i = .validate L) (s : State)
    (r : Option Response) (l : List Label) : exec i { s with resp := r, trace := l } = exec i s := by
  rcases hi with rfl | ⟨n, rfl⟩ | ⟨L, rfl⟩
  · rfl
  · rfl
  · rfl

/-- Phase 1 where the bytes `l` are stored in a row from index `len` on and the frame stays in progress (R108). -/
def drainedInARow (len : Nat) (l : List Byte) : Drained :=
  ⟨.accumulating, len + l.length, (l.zipIdx len).map fun p => (p.2, p.1), [], []⟩

/-- Past the PID, bytes that fit are stored in a row (R102, R108). -/
theorem drainByTable_of_fits (pid : Byte) (l : List Byte) {len : Nat} (h2 : 2 ≤ len) (h10 : len + l.length ≤ 10) :
    drainByTable pid .accumulating len l = drainedInARow len l := by
  simpa [drainByTable, drainedInARow] using drainByTable_append pid l [] len h2 h10

theorem drainedInARow_stored_ne (len : Nat) {l : List Byte} (hne : l ≠ []) :
    (drainedInARow len l).stored.length ≠ 0 := by
  simpa [drainedInARow] using hne

/-- No frame is ready after bytes stored in a row in a POLL that takes no time (R110 corner e, R202). -/
theorem readyByTable_drainedInARow {s : State} (hlapses : s.lapses = []) (hlegal : s.cfg.Legal) (len : Nat)
    {l : List Byte} (hne : l ≠ []) : readyByTable s (drainedInARow len l) = false :=
  Bool.or_eq_false_iff.2 ⟨rfl, firesByTable_of_stored hlapses hlegal (drainedInARow_stored_ne len hne)⟩

/-- The last of the bytes stored in a row in a POLL that takes no time is stamped with the clock as it stands
(R104, R108). -/
theorem tLastByTable_drainedInARow {s : State} (hlapses : s.lapses = []) (len : Nat) {l : List Byte} (hne : l ≠ []) :
    tLastByTable s (drainedInARow len l) = s.now :=
  (if_neg (drainedInARow_stored_ne len hne)).trans (clockAfter_of_noLapse hlapses _)

/-- Without a ready frame a POLL returns Incomplete, and its labels are those of phase 1 (R101, R161). -/
theorem finishByTable_output_of_not_ready {s : State} {d : Drained} (h : readyByTable s d = false) :
    (finishByTable s d).resp = some (.frame .incomplete) ∧ (finishByTable s d).trace = d.labels := by
  have hfires : firesByTable s d = false := (Bool.or_eq_false_iff.1 h).2
  simp [finishByTable, h, hfires]

/-! ## The statements -/

/-- Settles O36: the bytes are stored in a row from index `len` on, and the break check samples the clock the last of them
was stamped with. -/
theorem pollAppendsToTheFrameInProgress : Obligations.PollAppendsToTheFrameInProgress := by
  intro s pid hb hst h2 hlapses hlegal hne hfits
  have hr : RegistersInRules s := ⟨by omega, fun _ => by omega⟩
  have hexec := execPoll_eq_pollByTable pid hb hr fun hs => by simp [hst] at hs
  rw [pollByTable, hst, drainByTable_of_fits pid s.rxq h2 hfits] at hexec
  have hready := readyByTable_drainedInARow hlapses hlegal s.len.toNat hne
  obtain ⟨-, hst', hlen', -⟩ := finishByTable_of_not_ready hready
  obtain ⟨hresp, htrace⟩ := finishByTable_output_of_not_ready hready
  refine ⟨_, hexec, hresp, hst', ?_, tLastByTable_drainedInARow hlapses s.len.toNat hne, rfl, htrace,
    storeAll_zipIdx s.buf s.rxq s.len.toNat (by omega)⟩
  rw [hlen']
  exact toNat_ofNat_of_le_maxFrame (Nat.le_succ_of_le hfits)

/-- Settles O14: no step inside a POLL writes the input list, `bound` or the parameters. -/
theorem noInputIsTakenDuringAPoll : Obligations.NoInputIsTakenDuringAPoll := by
  intro s t hp h
  obtain ⟨hcfg, hbound, -⟩ := step_inPoll_writes hp h
  exact ⟨step_inPoll_inbox hp h, hbound, hcfg⟩

/-- Settles O53: a reader writes only the response and the labels, which it does not read. -/
theorem readersChangeNothing : Obligations.ReadersChangeNothing := by
  intro i s t hi h
  obtain ⟨r, l, rfl⟩ := reader_next hi h
  exact ⟨⟨rfl, rfl, rfl, rfl, rfl, rfl⟩, ⟨rfl, rfl, rfl, rfl, rfl⟩, rfl, fun _ => rfl,
    (exec_reader_congr hi s r l).trans h⟩

/-- Settles O10: between operations `fetch` takes the command word and runs what it decodes to. -/
theorem stepRunsTheCommand : Obligations.StepRunsTheCommand := by
  intro s w rest i hp hin hd
  have hfetch : fetch s = fetchInput s := by rw [fetch, hp]
  have hinput : fetchInput s = fetchedOf s { s with inbox := rest } (.cmd w) := by rw [fetchInput, hin]
  have hrun : fetchedOf s { s with inbox := rest } (.cmd w) = .run i { s with inbox := rest } := by
    rw [fetchedOf, decode, hd]
  rw [step, hfetch, hinput, hrun, perform_run]

end Sys2Proof.Machine
end

section
/-! PROOFS of the family on the encoding: the fields of a command word and its decoding by the opcode, the first row of the
decode table, the fields of the response words, where the steps of a POLL run, the POLL in steps, and the consumer's tick. -/

namespace Sys2Proof.Machine
open State

/-! ## The fields of a command word -/

/-- A command word is its two fields (R72). -/
theorem cmdWord_cmdOp_cmdArg (w : Cmd) : cmdWord (cmdOp w) (cmdArg w) = w :=
  (BitVec.extractLsb'_append_extractLsb'_eq_extractLsb' rfl).trans BitVec.extractLsb'_eq_self

/-- A mask applies to each field. -/
theorem and_cmdWord (w : Cmd) (op : BitVec 4) (arg : Byte) :
    w &&& cmdWord op arg = cmdWord (cmdOp w &&& op) (cmdArg w &&& arg) :=
  calc w &&& cmdWord op arg = cmdWord (cmdOp w) (cmdArg w) &&& cmdWord op arg := by rw [cmdWord_cmdOp_cmdArg]
    _ = cmdWord (cmdOp w &&& op) (cmdArg w &&& arg) := BitVec.and_append

/-- The mask `0xF00` keeps `op` and clears `arg`. -/
theorem and_opMask (w : Cmd) : w &&& 0xF00 = cmdWord (cmdOp w) 0 :=
  calc w &&& 0xF00 = cmdWord (cmdOp w &&& BitVec.allOnes 4) (cmdArg w &&& 0#8) := and_cmdWord w (BitVec.allOnes 4) 0
    _ = cmdWord (cmdOp w) 0 := by rw [BitVec.and_allOnes, BitVec.and_zero]; rfl

/-- A match under the mask `0xF00` is a match of `op`. -/
theorem cmdOp_of_and_opMask {w m : Cmd} (h : w &&& 0xF00 = m) : cmdOp w = cmdOp m := by
  rw [← h, and_opMask, Laws.EncodeDecode.cmdOp_cmdWord]

/-- A match under the mask `0xFF0` is a match of `op` and of the high four bits of `arg`. -/
theorem fields_of_and_nibbleMask {w m : Cmd} (h : w &&& 0xFF0 = m) :
    cmdOp w = cmdOp m ∧ w.extractLsb' 4 4 = m.extractLsb' 4 4 := by
  subst h
  constructor
  · rw [cmdOp, cmdOp, BitVec.extractLsb'_and]
    exact BitVec.and_allOnes.symm
  · rw [BitVec.extractLsb'_and]
    exact BitVec.and_allOnes.symm

/-- `arg` with its high four bits zero is its low four bits (R74, R81). -/
theorem cmdArg_eq_setWidth {w : Cmd} (h : w.extractLsb' 4 4 = 0) : cmdArg w = (w.extractLsb' 0 4).setWidth 8 :=
  calc cmdArg w = w.extractLsb' 4 4 ++ w.extractLsb' 0 4 :=
        (BitVec.extractLsb'_append_extractLsb'_eq_extractLsb' (start₁ := 0) (len₁ := 4) rfl).symm
    _ = (w.extractLsb' 0 4).setWidth 8 := by rw [h, BitVec.setWidth_eq_append (by decide)]; rfl

/-- A bit of the mask `0x0F0` is one of the high four bits of `arg`. -/
theorem highNibble_ne_zero {w : Cmd} (h : w &&& 0x0F0 ≠ 0) : w.extractLsb' 4 4 ≠ 0 := by
  intro hz
  have hmask : ∀ n : Len, n.setWidth 8 &&& (0xF0 : Byte) = 0 := by decide
  refine h ?_
  calc w &&& 0x0F0 = cmdWord (cmdOp w &&& 0#4) (cmdArg w &&& 0xF0) := and_cmdWord w 0 0xF0
    _ = 0 := by rw [cmdArg_eq_setWidth hz, hmask, BitVec.and_zero]; rfl

/-- The words from `0x500` on are those of the reserved opcodes (R80). -/
theorem five_le_cmdOp {w : Cmd} (h : 0x500 ≤ w) : 5 ≤ (cmdOp w).toNat := by
  have hw : (cmdOp w).toNat = w.toNat / 256 % 16 := by
    rw [cmdOp, BitVec.extractLsb'_toNat, Nat.shiftRight_eq_div_pow]
  have hle : 0x500 ≤ w.toNat := h
  have hlt := w.isLt
  omega

/-! ## Decoding a command word, by its opcode (R72, R80, R81) -/

theorem nibbleOperand_of_zero {w : Cmd} (h : w.extractLsb' 4 4 = 0) (mk : Len → Instr) :
    nibbleOperand w mk = .ok (mk (w.extractLsb' 0 4)) := if_pos h

theorem nibbleOperand_of_ne_zero {w : Cmd} (h : w.extractLsb' 4 4 ≠ 0) (mk : Len → Instr) :
    nibbleOperand w mk = .error .reservedArgBits := if_neg h

theorem decodeCmd_init {w : Cmd} (h : cmdOp w = 0) : decodeCmd w = .ok .init := by rw [decodeCmd, h]; rfl

theorem decodeCmd_poll {w : Cmd} (h : cmdOp w = 1) : decodeCmd w = .ok (.poll (cmdArg w)) := by rw [decodeCmd, h]; rfl

theorem decodeCmd_lastFrame {w : Cmd} (h : cmdOp w = 2) : decodeCmd w = .ok .lastFrame := by rw [decodeCmd, h]; rfl

theorem decodeCmd_checksum {w : Cmd} (h : cmdOp w = 3) : decodeCmd w = nibbleOperand w .checksum := by
  rw [decodeCmd, h]; rfl

theorem decodeCmd_validate {w : Cmd} (h : cmdOp w = 4) : decodeCmd w = nibbleOperand w .validate := by
  rw [decodeCmd, h]; rfl

theorem decodeCmd_reservedOpcode {w : Cmd} (h : 5 ≤ (cmdOp w).toNat) :
    decodeCmd w = .error (.reservedOpcode (cmdOp w)) := by
  obtain ⟨k, hk⟩ := Nat.exists_eq_add_of_le' h
  rw [decodeCmd, hk]
  rfl

theorem decodeCmd_reservedArgBits {w : Cmd} (hop : cmdOp w = 3 ∨ cmdOp w = 4) (h : w &&& 0x0F0 ≠ 0) :
    decodeCmd w = .error .reservedArgBits := by
  rcases hop with hop | hop
  · rw [decodeCmd_checksum hop, nibbleOperand_of_ne_zero (highNibble_ne_zero h)]
  · rw [decodeCmd_validate hop, nibbleOperand_of_ne_zero (highNibble_ne_zero h)]

/-- An operand of four bits that decodes is the whole `arg` (R81). -/
theorem nibbleOperand_ok {w : Cmd} {mk : Len → Instr} {i : Instr} (h : nibbleOperand w mk = .ok i) :
    ∃ n : Len, cmdArg w = n.setWidth 8 ∧ i = mk n := by
  by_cases hz : w.extractLsb' 4 4 = 0
  · rw [nibbleOperand_of_zero hz] at h
    exact ⟨_, cmdArg_eq_setWidth hz, (Except.ok.inj h).symm⟩
  · rw [nibbleOperand_of_ne_zero hz] at h
    cases h

/-- What a command word that decodes can be: one of the five opcodes, with the operand in `arg` (R72, R74). -/
theorem decodeCmd_ok {w : Cmd} {i : Instr} (h : decodeCmd w = .ok i) :
    (cmdOp w = 0 ∧ i = .init) ∨ (cmdOp w = 1 ∧ i = .poll (cmdArg w)) ∨ (cmdOp w = 2 ∧ i = .lastFrame) ∨
    (cmdOp w = 3 ∧ ∃ n : Len, cmdArg w = n.setWidth 8 ∧ i = .checksum n) ∨
    (cmdOp w = 4 ∧ ∃ L : Len, cmdArg w = L.setWidth 8 ∧ i = .validate L) := by
  have hop {k : BitVec 4} (hk : (cmdOp w).toNat = k.toNat) : cmdOp w = k := BitVec.eq_of_toNat_eq hk
  unfold decodeCmd at h
  split at h
  next h0 => exact .inl ⟨hop h0, (Except.ok.inj h).symm⟩
  next h1 => exact .inr (.inl ⟨hop h1, (Except.ok.inj h).symm⟩)
  next h2 => exact .inr (.inr (.inl ⟨hop h2, (Except.ok.inj h).symm⟩))
  next h3 => exact .inr (.inr (.inr (.inl ⟨hop h3, nibbleOperand_ok h⟩)))
  next h4 => exact .inr (.inr (.inr (.inr ⟨hop h4, nibbleOperand_ok h⟩)))
  next => cases h

/-- A command word that does not decode is refused by the step that takes it (R12, R80, R81). -/
theorem step_of_decodeCmd_error {s : State} {w : Cmd} {rest : List Input} {r : DecodeError} (hp : s.poll = none)
    (hin : s.inbox = .cmd w :: rest) (hd : decodeCmd w = .error r) : step s = .refused (refusalOf r) := by
  have hfetch : fetch s = fetchInput s := by rw [fetch, hp]
  have hinput : fetchInput s = fetchedOf s { s with inbox := rest } (.cmd w) := by rw [fetchInput, hin]
  have hstop : fetchedOf s { s with inbox := rest } (.cmd w) = .stop (refusalOf r) := by rw [fetchedOf, decode, hd]
  rw [step, hfetch, hinput, hstop, perform_stop]

/-! ## The decode table of received bytes (R79) -/

/-- The operation of the first of the rows whose side condition holds and whose match is the masked byte. -/
def firstRow (b : Byte) (rows : List (Bool × Byte × Byte × Instr)) : Option Instr :=
  (rows.find? fun r => r.1 && decide (b &&& r.2.1 = r.2.2.1)).map fun r => r.2.2.2

section Row
variable {side : Prop} [Decidable side] {mask value b : Byte} {i : Instr} {rows : List (Bool × Byte × Byte × Instr)}

theorem firstRow_of_match (hside : side) (hbyte : b &&& mask = value) :
    firstRow b ((decide side, mask, value, i) :: rows) = some i := by
  simp [firstRow, hside, hbyte]

theorem firstRow_of_mismatch (h : ¬(side ∧ b &&& mask = value)) :
    firstRow b ((decide side, mask, value, i) :: rows) = firstRow b rows := by
  rw [firstRow, List.find?_cons_of_neg (by simpa using h), firstRow]

end Row

/-- The mask `0xFF` compares the whole byte. -/
theorem byte_and_full (b : Byte) : b &&& 0xFF = b := BitVec.and_allOnes

/-- The mask `0x00` compares nothing. -/
theorem byte_and_none (b : Byte) : b &&& 0x00 = 0x00 := BitVec.and_zero

/-- While searching the first two rows decide, by the sync byte. -/
theorem firstRow_searching (pid : Byte) (len : Len) (b : Byte) :
    firstRow b (rowsR79 pid .searchingSync len b) = some (if b = 0x55 then .bSyncAccept b else .bSyncDiscard b) := by
  rw [rowsR79]
  by_cases hb : b = 0x55
  · rw [firstRow_of_match rfl ((byte_and_full b).trans hb), if_pos hb]
  · rw [firstRow_of_mismatch fun h => hb ((byte_and_full b).symm.trans h.2),
      firstRow_of_match rfl (byte_and_none b), if_neg hb]

/-- At the byte after the sync byte the two rows of the PID filter decide, where the operand is not the wildcard. -/
theorem firstRow_filtered {pid : Byte} {len : Len} (h : len = 1 ∧ pid ≠ 0x00) (b : Byte) :
    firstRow b (rowsR79 pid .accumulating len b) = some (if b = pid then .bStore b else .bPidReject b) := by
  rw [rowsR79, firstRow_of_mismatch (by simp), firstRow_of_mismatch (by simp)]
  by_cases hb : b = pid
  · rw [firstRow_of_match ⟨rfl, h⟩ ((byte_and_full b).trans hb), if_pos hb]
  · rw [firstRow_of_mismatch fun hm => hb ((byte_and_full b).symm.trans hm.2),
      firstRow_of_match ⟨rfl, h⟩ (byte_and_none b), if_neg hb]

/-- Every other byte of a frame meets the last row. -/
theorem firstRow_unfiltered {pid : Byte} {len : Len} (h : ¬(len = 1 ∧ pid ≠ 0x00)) (b : Byte) :
    firstRow b (rowsR79 pid .accumulating len b) = some (.bStore b) := by
  have hside : ¬(DecoderState.accumulating = .accumulating ∧ len = 1 ∧ pid ≠ 0x00) := fun hs => h hs.2
  rw [rowsR79, firstRow_of_mismatch (by simp), firstRow_of_mismatch (by simp),
    firstRow_of_mismatch fun hm => hside hm.1, firstRow_of_mismatch fun hm => hside hm.1,
    firstRow_of_match rfl (byte_and_none b)]

/-! ## The fields of a response word -/

theorem extractLsb'_append_byte_low {v : Nat} (x : BitVec v) (b : Byte) : (x ++ b).extractLsb' 0 8 = b :=
  (BitVec.extractLsb'_append_eq_of_add_le (by decide)).trans BitVec.extractLsb'_eq_self

theorem extractLsb'_append_byte_high {v : Nat} (x : BitVec v) (b : Byte) (k len : Nat) :
    (x ++ b).extractLsb' (k + 8) len = x.extractLsb' k len :=
  BitVec.extractLsb'_append_eq_of_le (by omega)

/-! ## Where the steps of a POLL run -/

/-- What R78 selects is well formed, for the seven steps of a POLL: a sync event has the byte it stands for. -/
theorem wellFormed_of_Selects {ctx : Context} {i : Instr} (hi : i.isHost = false) (h : Selects ctx i) :
    WellFormed i := by
  cases i with
  | init | poll | lastFrame | checksum | validate => cases hi
  | bSyncAccept b =>
    obtain ⟨-, -, hb⟩ := h
    exact if_pos hb
  | bSyncDiscard b =>
    obtain ⟨-, -, hb⟩ := h
    exact if_neg hb
  | bPidReject | bStore | tBreak | deliver | dropShort => rfl

/-- For the seven steps of a POLL, `selects` is the column "selected by" of R78, well formed or not. -/
theorem selects_iff_Selects_of_pollStep {s : State} {i : Instr} (hi : i.isHost = false) :
    s.selects i = true ↔ Selects s.context i :=
  ⟨fun h => (selects_iff_Selects hi (wellFormed_of_selects hi h)).1 h,
    fun h => (selects_iff_Selects hi (wellFormed_of_Selects hi h)).2 h⟩

theorem drainEnded_iff (s : State) : s.drainEnded = true ↔ s.st = .frameReady ∨ s.rxq = [] := by
  simp [drainEnded, rxAvail]

/-- None of the seven steps is selected alone (R78). -/
theorem not_Selects_alone {ctx : Context} {i : Instr} (hi : i.isHost = false) (hp : ctx.poll = none) :
    ¬Selects ctx i := by
  cases i with
  | init | poll | lastFrame | checksum | validate => cases hi
  | bSyncAccept | bSyncDiscard | deliver | dropShort =>
    rintro ⟨⟨pid, hpid⟩, -⟩
    simp [hp] at hpid
  | bPidReject | bStore =>
    rintro ⟨pid, hpid, -⟩
    simp [hp] at hpid
  | tBreak =>
    rintro ⟨pid, hpid⟩
    simp [hp] at hpid

/-- A step of a POLL answers a next state where it is selected, T_BREAK after the drain, and is refused elsewhere. -/
theorem execPollStep_outcome {i : Instr} (s : State) (hi : i.isHost = false) :
    ((s.selects i = true ∧ (i = .tBreak → s.drainEnded = true)) ∧ ∃ t, exec i s = .next t) ∨
    (¬(s.selects i = true ∧ (i = .tBreak → s.drainEnded = true)) ∧ exec i s = .refused .stepNotSelected) := by
  cases i with
  | init | poll | lastFrame | checksum | validate => cases hi
  | bSyncAccept b => by_cases h : s.selects (.bSyncAccept b) = true <;> simp [exec, execBSyncAccept, h]
  | bSyncDiscard b => by_cases h : s.selects (.bSyncDiscard b) = true <;> simp [exec, execBSyncDiscard, h]
  | bPidReject b => by_cases h : s.selects (.bPidReject b) = true <;> simp [exec, execBPidReject, h]
  | bStore b => by_cases h : s.selects (.bStore b) = true <;> simp [exec, execBStore, h]
  | tBreak => by_cases h : s.selects .tBreak = true ∧ s.drainEnded = true <;> simp [exec, execTBreak, h]
  | deliver => by_cases h : s.selects .deliver = true <;> simp [exec, execDeliver, h]
  | dropShort => by_cases h : s.selects .dropShort = true <;> simp [exec, execDropShort, h]

/-! ## The POLL in steps -/

/-- The break check leads past phase 1 (R101). -/
theorem breakCheck_poll {s : State} {pid : Byte} (hp : s.poll = some ⟨pid, .drain⟩) :
    s.breakCheck.poll = some ⟨pid, .settle⟩ := by
  unfold breakCheck
  split <;> simp [hp]

/-- The break check leads from a register state of the rules to one: a frame it makes ready keeps its length (R110). -/
theorem breakCheck_rules {s : State} (hr : RegistersInRules s) : RegistersInRules s.breakCheck := by
  obtain ⟨hle, hacc⟩ := hr
  by_cases hsil : s.clockTick.silent = true
  · rw [breakCheck_of_silent hsil]
    exact ⟨hle, fun hst => by simp at hst⟩
  · rw [breakCheck_of_not_silent hsil]
    exact ⟨hle, hacc⟩

/-- Phases 2 and 3 are one step each (R101). -/
theorem run_break_settle {s : State} {pid : Byte} (hp : s.poll = some ⟨pid, .drain⟩) (hr : RegistersInRules s)
    (hd : s.st = .frameReady ∨ s.rxq = []) : Host.Core.run core 2 s = .next s.breakCheck.settle := by
  rw [run_of_step (step_break hp hd), run_of_step (step_settle (breakCheck_poll hp) (breakCheck_rules hr))]
  rfl

/-! ## The consumer's tick (R84) -/

theorem tickConsumer_of_incomplete {pid : Byte} {s t : State} (h : exec (.poll pid) s = .next t)
    (hresp : t.resp = some (.frame .incomplete)) : tickConsumer pid s = .next t := by
  simp only [tickConsumer, h, hresp]

theorem tickConsumer_of_complete {pid : Byte} {s t : State} {n : Len} (h : exec (.poll pid) s = .next t)
    (hresp : t.resp = some (.frame (.complete n))) : tickConsumer pid s = exec (.validate n) t := by
  simp only [tickConsumer, h, hresp]

/-! ## The statements -/

/-- Settles O4: for each instruction the law of its encoding. -/
theorem decodeOfEncodeIsTheInstruction : Obligations.DecodeOfEncodeIsTheInstruction
  | .init => Laws.EncodeDecode.init
  | .poll pid => Laws.EncodeDecode.poll pid
  | .lastFrame => Laws.EncodeDecode.lastFrame
  | .checksum n => Laws.EncodeDecode.checksum n
  | .validate L => Laws.EncodeDecode.validate L
  | .bSyncAccept b => Laws.EncodeDecode.bSyncAccept b
  | .bSyncDiscard b => Laws.EncodeDecode.bSyncDiscard b
  | .bPidReject b => Laws.EncodeDecode.bPidReject b
  | .bStore b => Laws.EncodeDecode.bStore b
  | .tBreak => Laws.EncodeDecode.tBreak
  | .deliver => Laws.EncodeDecode.deliver
  | .dropShort => Laws.EncodeDecode.dropShort

/-- Settles O5: a word is its fields, and what decodes from it has them, but for the `arg` of INIT and LASTFRAME. -/
theorem encodeOfDecodeIsTheWord : Obligations.EncodeOfDecodeIsTheWord := by
  intro w i h
  have hword {op : BitVec 4} (hop : cmdOp w = op) : cmdWord op (cmdArg w) = w := hop ▸ cmdWord_cmdOp_cmdArg w
  rcases decodeCmd_ok h with ⟨hop, rfl⟩ | ⟨hop, rfl⟩ | ⟨hop, rfl⟩ | ⟨hop, n, harg, rfl⟩ | ⟨hop, L, harg, rfl⟩
  · rw [if_pos (.inl hop), and_opMask, hop]; rfl
  · rw [if_neg (by rw [hop]; decide)]
    exact congrArg Encoding.cmd (hword hop)
  · rw [if_pos (.inr hop), and_opMask, hop]; rfl
  · rw [if_neg (by rw [hop]; decide), encode, ← harg, hword hop]
  · rw [if_neg (by rw [hop]; decide), encode, ← harg, hword hop]

/-- Settles O7: in each state the byte tests of R79 pick the operation, and the row of that operation is the first. -/
theorem receivedByteTakesTheFirstRow : Obligations.ReceivedByteTakesTheFirstRow := by
  refine ⟨fun pid b st len hst hacc => ?_, fun pid b len i h => by cases h⟩
  cases st with
  | frameReady => exact absurd rfl hst
  | searchingSync =>
    have hrow := firstRow_searching pid len b
    by_cases hb : b = 0x55
    · exact ⟨_, Laws.EncodeDecode.bSyncAccept b _ (if_pos hb) ⟨⟨pid, rfl⟩, rfl, hb⟩, by rwa [if_pos hb] at hrow⟩
    · exact ⟨_, Laws.EncodeDecode.bSyncDiscard b _ (if_neg hb) ⟨⟨pid, rfl⟩, rfl, hb⟩, by rwa [if_neg hb] at hrow⟩
  | accumulating =>
    by_cases hfilter : len = 1 ∧ pid ≠ 0x00
    · have hrow := firstRow_filtered hfilter b
      by_cases hb : b = pid
      · exact ⟨_, Laws.EncodeDecode.bStore b _ rfl ⟨pid, rfl, rfl, hacc rfl, fun hn => hn.2.2 hb⟩,
          by rwa [if_pos hb] at hrow⟩
      · exact ⟨_, Laws.EncodeDecode.bPidReject b _ rfl ⟨pid, rfl, rfl, hfilter.1, hfilter.2, hb⟩,
          by rwa [if_neg hb] at hrow⟩
    · exact ⟨_, Laws.EncodeDecode.bStore b _ rfl ⟨pid, rfl, rfl, hacc rfl, fun hn => hfilter ⟨hn.1, hn.2.1⟩⟩,
        firstRow_unfiltered hfilter b⟩

/-- Settles O9: a field of a concatenation is the operand at its place, found by taking off the bytes below it. -/
theorem responseWordsHoldTheirFields : Obligations.ResponseWordsHoldTheirFields := by
  refine ⟨fun bytes n => ⟨fun i h => ?_, ?_⟩, fun c r => ?_, rfl, fun n => rfl⟩
  · rw [snapshotWord]
    interval_cases i <;> simp only [Nat.reduceMul, extractLsb'_append_byte_high, extractLsb'_append_byte_low]
  · simp only [snapshotWord, extractLsb'_append_byte_high, BitVec.extractLsb'_eq_self]
  · simp [Verdict.word, extractLsb'_append_byte_high, extractLsb'_append_byte_low]

/-- Settles O22: `exec` asks for the selection, which is the column of R78, and for the end of the drain. -/
theorem pollStepsRunExactlyWhereSelected : Obligations.PollStepsRunExactlyWhereSelected := by
  intro i s hi
  have hcases := execPollStep_outcome s hi
  simp only [selects_iff_Selects_of_pollStep hi, drainEnded_iff] at hcases
  rcases hcases with ⟨hsel, hnext⟩ | ⟨hnot, href⟩
  · exact ⟨fun _ => hnext, fun hn => absurd hsel hn, fun hp => absurd hsel.1 (not_Selects_alone hi hp)⟩
  · exact ⟨fun h => absurd h hnot, fun _ => href, fun _ => href⟩

/-- Settles O28: phase 1 is at most one step for each byte, and phases 2 and 3 one each. -/
theorem pollIsMadeOfItsSteps : Obligations.PollIsMadeOfItsSteps := by
  intro s pid hb hr
  obtain ⟨k, hk, hrun, hpoll, hrules, hended⟩ := run_drain pid s.rxq (s.openPoll pid) rfl rfl hr
  exact ⟨s.pollPhases pid, k + 2, by omega, execPoll_eq hb hr,
    (hrun 2).trans (run_break_settle hpoll hrules hended)⟩

/-- Settles O42: the POLL ends with Incomplete, or with a length in the range of VALIDATE. -/
theorem consumerTickIsNeverRefused : Obligations.ConsumerTickIsNeverRefused := by
  intro s pid hb h
  obtain ⟨t, r, hexec, -, -, hresp, rfl | ⟨n, rfl, hn⟩⟩ := pollEndsBetweenOperations s pid hb h
  · exact ⟨t, tickConsumer_of_incomplete hexec hresp, .inl hresp⟩
  · obtain ⟨u, hval, hverdict⟩ := execValidate_resp t hn
    exact ⟨u, (tickConsumer_of_complete hexec hresp).trans hval, .inr ⟨_, hverdict⟩⟩

/-- Settles O3: the decoder computes each of the words. -/
theorem writtenOutWordsDecode : Obligations.WrittenOutWordsDecode :=
  ⟨rfl, rfl, rfl, rfl, rfl, rfl, rfl, rfl, rfl, rfl, rfl, rfl⟩

/-- Settles O6: a match under a mask gives the opcode, and for CHECKSUM and VALIDATE the high four bits of `arg`. -/
theorem commandWordsByMaskAndMatch : Obligations.CommandWordsByMaskAndMatch := by
  intro w
  have harg : w.setWidth 8 = cmdArg w := BitVec.setWidth_eq_extractLsb' (by decide)
  have hnibble : w.setWidth 4 = w.extractLsb' 0 4 := BitVec.setWidth_eq_extractLsb' (by decide)
  rw [harg, hnibble]
  refine ⟨fun h => decodeCmd_init (cmdOp_of_and_opMask h), fun h => decodeCmd_poll (cmdOp_of_and_opMask h),
    fun h => decodeCmd_lastFrame (cmdOp_of_and_opMask h), fun h => ?_, fun h => ?_, fun h hbits => ?_,
    fun h => decodeCmd_reservedOpcode (five_le_cmdOp h)⟩
  · obtain ⟨hop, hz⟩ := fields_of_and_nibbleMask h
    rw [decodeCmd_checksum hop, nibbleOperand_of_zero hz]
  · obtain ⟨hop, hz⟩ := fields_of_and_nibbleMask h
    rw [decodeCmd_validate hop, nibbleOperand_of_zero hz]
  · exact decodeCmd_reservedArgBits (h.imp cmdOp_of_and_opMask cmdOp_of_and_opMask) hbits

/-- Settles O13: neither kind of word decodes, and the step that takes it refuses it. -/
theorem reservedCommandsAreRefused : Obligations.ReservedCommandsAreRefused :=
  fun _ _ _ hp hin => ⟨fun h => step_of_decodeCmd_error hp hin (decodeCmd_reservedOpcode h),
    fun hop h => step_of_decodeCmd_error hp hin (decodeCmd_reservedArgBits hop h)⟩

end Sys2Proof.Machine
end

section
/-! PROOFS of the family on the frame decoder: the seven steps of a POLL by their effects, the transitions of the
decoder state, a whole POLL over the bytes at hand, and a frame that comes in bursts. -/

namespace Sys2Proof.Machine
open State

/-! ## The effects of the steps of a POLL, as one state each -/

/-- A clock sample that is kept as `t_last` (R56, R104). -/
theorem stamp_eq (s : State) : s.stamp =
    { s with tLast := clockAfter s 1, now := clockAfter s 1, lapses := s.lapses.drop 1 } := by
  rw [stamp, now_clockTick, clockTick_eq]

/-- B_SYNC_ACCEPT (R106). -/
theorem syncAccept_eq (s : State) (b : Byte) : s.syncAccept b = { s with
    buf := s.buf.set 0 b, len := 1, st := .accumulating, tLast := clockAfter s 1, now := clockAfter s 1,
    lapses := s.lapses.drop 1 } := by
  rw [syncAccept, stamp_eq, writeBuf, setIfInBounds_eq_set _ _ (by decide)]
  rfl

theorem add_one_eq_eleven_iff {n : Len} : n + 1 = 11 ↔ n.toNat + 1 = 11 := by
  rw [← BitVec.toNat_inj, BitVec.toNat_add]
  have := n.isLt
  simp
  omega

/-- B_STORE inside the buffer, the eleventh byte included (R108, R109, R161). -/
theorem storeByte_eq {s : State} (b : Byte) (hst : s.st = .accumulating) (high : s.len.toNat ≤ 10) :
    s.storeByte b = { s with
      buf := s.buf.set s.len.toNat b, len := s.len + 1, tLast := clockAfter s 1, now := clockAfter s 1,
      lapses := s.lapses.drop 1, st := if s.len.toNat + 1 = 11 then .frameReady else .accumulating,
      trace := if s.len.toNat + 1 = 11 ∧ s.rxq ≠ [] then s.trace ++ [.overflow] else s.trace } := by
  have hbuf := setIfInBounds_eq_set s.buf s.len.toNat (Nat.lt_succ_of_le high) b
  by_cases heleven : s.len + 1 = 11
  · rw [storeByte, if_pos heleven, stamp_eq, forceCompletion]
    simp [add_one_eq_eleven_iff.1 heleven, rxAvail, hbuf, clockAfter]
  · rw [storeByte, if_neg heleven, stamp_eq]
    simp [mt add_one_eq_eleven_iff.2 heleven, hbuf, clockAfter, hst]

/-! ## Where it is selected, a step of a POLL has its effect (R78) -/

/-- A step of a POLL runs where R78 selects it. -/
theorem selects_of_pollStep {s : State} {i : Instr} (hi : i.isHost = false) (h : Selects s.context i) :
    s.selects i = true := (selects_iff_Selects_of_pollStep hi).2 h

theorem execBSyncDiscard_eq {s : State} {b : Byte} (h : Selects s.context (.bSyncDiscard b)) :
    exec (.bSyncDiscard b) s = .next s.syncDiscard := if_pos (selects_of_pollStep rfl h)

theorem execBSyncAccept_eq {s : State} {b : Byte} (h : Selects s.context (.bSyncAccept b)) :
    exec (.bSyncAccept b) s = .next (s.syncAccept b) := if_pos (selects_of_pollStep rfl h)

theorem execBPidReject_eq {s : State} {b : Byte} (h : Selects s.context (.bPidReject b)) :
    exec (.bPidReject b) s = .next s.pidReject := if_pos (selects_of_pollStep rfl h)

theorem execBStore_eq {s : State} {b : Byte} (h : Selects s.context (.bStore b)) :
    exec (.bStore b) s = .next (s.storeByte b) := if_pos (selects_of_pollStep rfl h)

theorem execTBreak_eq {s : State} (h : Selects s.context .tBreak) (hd : s.st = .frameReady ∨ s.rxq = []) :
    exec .tBreak s = .next s.breakCheck := if_pos ⟨selects_of_pollStep rfl h, (drainEnded_iff s).2 hd⟩

theorem execDeliver_eq {s : State} (h : Selects s.context .deliver) : exec .deliver s = .next s.deliver :=
  if_pos (selects_of_pollStep rfl h)

theorem execDropShort_eq {s : State} (h : Selects s.context .dropShort) : exec .dropShort s = .next s.dropShort :=
  if_pos (selects_of_pollStep rfl h)

/-- Only a searching decoder takes a byte for a sync candidate (R79, R117). -/
theorem searching_of_decode_sync {ctx : Context} {b c : Byte}
    (h : decode ctx (.byte b) = .ok (.bSyncAccept c) ∨ decode ctx (.byte b) = .ok (.bSyncDiscard c)) :
    ctx.st = .searchingSync := by
  rw [decode] at h
  rcases h with h | h
  · obtain ⟨-, ⟨-, hst, -⟩, -⟩ := Selects_of_decodeByte h
    exact hst
  · obtain ⟨-, ⟨-, hst, -⟩, -⟩ := Selects_of_decodeByte h
    exact hst

/-- What decodes is run in the state given. -/
theorem perform_fetchedOf {s t : State} {e : Encoding} {i : Instr} (h : decode s.context e = .ok i) :
    perform (fetchedOf s t e) = exec i t := by rw [fetchedOf, h, perform_run]

theorem fetch_of_poll {s : State} {p : Poll} (hp : s.poll = some p) : fetch s = fetchPollStep p s := by rw [fetch, hp]

/-! ## The decoder state's transitions (R114) -/

/-- The three operations that read only (R58). -/
def IsReader (i : Instr) : Prop := i = .lastFrame ∨ (∃ n, i = .checksum n) ∨ ∃ L, i = .validate L

/-- The rows of R114 for an operation other than POLL, on `st` and `len` before and after it. -/
inductive TableRow : Instr → DecoderState → Len → DecoderState → Len → Prop where
  | stay {i st len len'} (h : IsReader i → len' = len) : TableRow i st len st len'
  | init {st len} : TableRow .init st len .searchingSync 0
  | syncAccept {len} : TableRow (.bSyncAccept 0x55) .searchingSync len .accumulating 1
  | pidReject {b} : TableRow (.bPidReject b) .accumulating 1 .searchingSync 0
  | eleventh {b} : TableRow (.bStore b) .accumulating 10 .frameReady 11
  | breakSeen {len} : TableRow .tBreak .accumulating len .frameReady len
  | deliver {len} (h : 2 ≤ len.toNat) : TableRow .deliver .frameReady len .searchingSync 0
  | dropShort {len} (h : len.toNat < 2) : TableRow .dropShort .frameReady len .searchingSync 0

theorem TableRow.of_st_eq {i : Instr} {s t : State} (hst : t.st = s.st) (hi : i.isHost = false) :
    TableRow i s.st s.len t.st t.len := by
  rw [hst]
  exact .stay fun hr => by rcases hr with rfl | ⟨n, rfl⟩ | ⟨L, rfl⟩ <;> cases hi

/-- A reader keeps `st` and `len` (R58). -/
theorem tableRow_of_reader {i : Instr} {s t : State} (hi : IsReader i) (h : exec i s = .next t) :
    TableRow i s.st s.len t.st t.len := by
  obtain ⟨r, l, rfl⟩ := reader_next hi h
  exact .stay fun _ => rfl

/-- B_STORE stays in Accumulating but for the eleventh byte (R108, R109). -/
theorem tableRow_storeByte {s : State} (b : Byte) (hst : s.st = .accumulating) :
    TableRow (.bStore b) s.st s.len (s.storeByte b).st (s.storeByte b).len := by
  by_cases heleven : s.len + 1 = 11
  · have hten : s.len = 10 := by rw [eq_sub_of_add_eq heleven]; rfl
    rw [storeByte_st, if_pos heleven, storeByte_len, hten, hst]
    exact .eleventh
  · exact .of_st_eq (by rw [storeByte_st, if_neg heleven]) rfl

/-- T_BREAK makes a frame in progress ready, with its length, or leaves `st` (R110). -/
theorem tableRow_breakCheck (s : State) : TableRow .tBreak s.st s.len s.breakCheck.st s.breakCheck.len := by
  by_cases hsil : s.clockTick.silent = true
  · obtain ⟨hst, -⟩ := (clockTick_silent s).1 hsil
    rw [breakCheck_of_silent hsil, hst]
    exact .breakSeen
  · rw [breakCheck_of_not_silent hsil]
    exact .of_st_eq rfl rfl

/-- Every operation other than POLL changes `st` and `len` by a row of R114. -/
theorem exec_tableRow {i : Instr} {s t : State} (hi : ∀ pid, i ≠ .poll pid) (h : exec i s = .next t) :
    TableRow i s.st s.len t.st t.len := by
  cases i with
  | poll pid => exact absurd rfl (hi pid)
  | init =>
    obtain rfl := Host.Outcome.next.inj h
    exact .init
  | lastFrame => exact tableRow_of_reader (.inl rfl) h
  | checksum n => exact tableRow_of_reader (.inr (.inl ⟨n, rfl⟩)) h
  | validate L => exact tableRow_of_reader (.inr (.inr ⟨L, rfl⟩)) h
  | bSyncAccept b =>
    obtain ⟨⟨-, hst, rfl⟩, rfl⟩ := execBSyncAccept_next h
    rw [show s.st = .searchingSync from hst]
    exact .syncAccept
  | bSyncDiscard b =>
    obtain ⟨-, rfl⟩ := execBSyncDiscard_next h
    exact .of_st_eq rfl rfl
  | bPidReject b =>
    obtain ⟨⟨-, -, hst, hlen, -⟩, rfl⟩ := execBPidReject_next h
    rw [show s.st = .accumulating from hst, show s.len = 1 from hlen]
    exact .pidReject
  | bStore b =>
    obtain ⟨⟨-, -, hst, -⟩, rfl⟩ := execBStore_next h
    exact tableRow_storeByte b hst
  | tBreak =>
    obtain ⟨-, -, rfl⟩ := execTBreak_next h
    exact tableRow_breakCheck s
  | deliver =>
    obtain ⟨⟨-, hst, h2, -⟩, rfl⟩ := execDeliver_next h
    rw [show s.st = .frameReady from hst]
    exact .deliver h2
  | dropShort =>
    obtain ⟨⟨-, hst, h2⟩, rfl⟩ := execDropShort_next h
    rw [show s.st = .frameReady from hst]
    exact .dropShort h2

/-! ## A POLL that stores no byte -/

/-- Phase 1 where no byte is stored. -/
def drainedUnstored (st : DecoderState) (len : Nat) (labels : List Label) (left : List Byte) : Drained :=
  ⟨st, len, [], labels, left⟩

/-- The end of a POLL that stores no byte and makes no frame ready: one clock sample, and Incomplete. -/
theorem finishByTable_unstored_of_not_ready {s : State} {labels : List Label} {left : List Byte}
    (h : readyByTable s (drainedUnstored s.st s.len.toNat labels left) = false) :
    finishByTable s (drainedUnstored s.st s.len.toNat labels left) = { s with
      rxq := left, now := clockAfter s 1, lapses := s.lapses.drop 1, poll := none,
      resp := some (.frame .incomplete), trace := labels } := by
  have hfires : firesByTable s (drainedUnstored s.st s.len.toNat labels left) = false := (Bool.or_eq_false_iff.1 h).2
  rw [finishByTable, h, hfires]
  simp [drainedUnstored, storeAll, tLastByTable]

/-- The end of a POLL that stores no byte and finds or makes a frame ready: one clock sample, and the completion. -/
theorem finishByTable_unstored_of_ready {s : State} {left : List Byte}
    (h : readyByTable s (drainedUnstored s.st s.len.toNat [] left) = true) :
    finishByTable s (drainedUnstored s.st s.len.toNat [] left) = { s with
      len := 0, st := .searchingSync, lastLen := if 2 ≤ s.len.toNat then s.len else s.lastLen,
      rxq := left, now := clockAfter s 1, lapses := s.lapses.drop 1, poll := none,
      resp := some (.frame (if 2 ≤ s.len.toNat then .complete s.len else .incomplete)),
      trace := (if firesByTable s (drainedUnstored s.st s.len.toNat [] left) = true then [.breakSeen] else []) ++
        (if 2 ≤ s.len.toNat then [] else [.truncated]) } := by
  rw [finishByTable, h]
  by_cases h2 : 2 ≤ s.len.toNat
  · simp [drainedUnstored, storeAll, tLastByTable, h2, Nat.not_lt.2 h2]
  · simp [drainedUnstored, storeAll, tLastByTable, h2, Nat.not_le.1 h2]

/-- Where no byte is stored, the break check compares with `t_last` as it was (R110). -/
theorem firesByTable_unstored (s : State) (st : DecoderState) (len : Nat) (labels : List Label) (left : List Byte) :
    firesByTable s (drainedUnstored st len labels left) =
      decide (st = .accumulating ∧ s.cfg.breakThreshold.toNat ≤ (clockAfter s 1 - s.tLast).toNat) := rfl

/-- Bytes without `0x55` are lost while searching, each with a SyncMismatch (R105). -/
theorem drainByTable_withoutSync (pid : Byte) {avail : List Byte} (h : ∀ b ∈ avail, b ≠ 0x55) :
    drainByTable pid .searchingSync 0 avail =
      drainedUnstored .searchingSync 0 (List.replicate avail.length .syncMismatch) [] := by
  induction avail with
  | nil => rfl
  | cons b rest ih =>
    obtain ⟨hb, hrest⟩ := List.forall_mem_cons.1 h
    rw [drainByTable_cons (by decide) (byteRow_discard pid 0 rest hb)]
    simp only
    rw [ih hrest]
    rfl

theorem registersInRules_of_searching {s : State} (hst : s.st = .searchingSync) (hlen : s.len = 0) :
    RegistersInRules s := ⟨by simp [hlen], fun h => by simp [hst] at h⟩

/-- A POLL that finds no sync byte while searching (R105, R110). -/
theorem execPoll_withoutSync {s : State} (pid : Byte) (hb : s.bound = true) (hst : s.st = .searchingSync)
    (hlen : s.len = 0) (h : ∀ b ∈ s.rxq, b ≠ 0x55) : exec (.poll pid) s = .next { s with
      rxq := [], now := clockAfter s 1, lapses := s.lapses.drop 1, poll := none, resp := some (.frame .incomplete),
      trace := List.replicate s.rxq.length .syncMismatch } := by
  have hexec := execPoll_eq_pollByTable pid hb (registersInRules_of_searching hst hlen) fun _ => hlen
  have hnat : s.len.toNat = 0 := by rw [hlen]; rfl
  have hdrain := drainByTable_withoutSync pid h
  rw [← hnat, ← hst] at hdrain
  rw [hexec, pollByTable, hdrain, finishByTable_unstored_of_not_ready]
  rw [readyByTable, firesByTable_unstored, hst]
  rfl

/-- A POLL that finds no byte is the break check and the completion (R110 to R112). -/
theorem execPoll_noByte {s : State} (pid : Byte) (hb : s.bound = true) (hr : RegistersInRules s)
    (hss : s.st = .searchingSync → s.len = 0) (hq : s.rxq = []) :
    exec (.poll pid) s = .next (finishByTable s (drainedUnstored s.st s.len.toNat [] [])) := by
  rw [execPoll_eq_pollByTable pid hb hr hss, pollByTable, hq]
  rfl

/-! ## The bytes a POLL takes, and the frames it hands out -/

/-- A ready frame of two bytes or more is handed out with its length (R111, R75). -/
theorem finishByTable_complete {s : State} {d : Drained} (h : readyByTable s d = true) (h2 : 2 ≤ d.len) :
    (finishByTable s d).resp = some (.frame (.complete (BitVec.ofNat 4 d.len))) ∧
    (finishByTable s d).lastLen = BitVec.ofNat 4 d.len := by
  simp [finishByTable, h, h2]

/-- What a POLL hands out is a ready frame of two bytes or more, with its length (R111, R75). -/
theorem complete_of_finishByTable {s : State} {d : Drained} {n : Len}
    (h : (finishByTable s d).resp = some (.frame (.complete n))) :
    readyByTable s d = true ∧ 2 ≤ d.len ∧ n = BitVec.ofNat 4 d.len := by
  by_cases hready : readyByTable s d = true ∧ 2 ≤ d.len
  · obtain ⟨hresp, -⟩ := finishByTable_complete hready.1 hready.2
    exact ⟨hready.1, hready.2, by simpa using h.symm.trans hresp⟩
  · simp only [finishByTable, if_neg hready] at h
    simp at h

/-- What phase 1 leads to when the byte `b` is stored at `i` and the labels are emitted before all that `d` records. -/
def Drained.after (d : Drained) (i : Nat) (b : Byte) (labels : List Label) : Drained :=
  { d with stored := (i, b) :: d.stored, labels := labels ++ d.labels }

/-- `b` is stored at `i` at a clock sample, and `avail` is at hand (R104, R106, R108). -/
def State.afterStore (s : State) (i : Nat) (b : Byte) (avail : List Byte) : State :=
  { s with
    rxq := avail, buf := s.buf.setIfInBounds i b, tLast := clockAfter s 1, now := clockAfter s 1,
    lapses := s.lapses.drop 1 }

theorem afterStore_eq_set (s : State) {i : Nat} (h : i < 11) (b : Byte) (avail : List Byte) :
    s.afterStore i b avail = { s with
      rxq := avail, buf := s.buf.set i b, tLast := clockAfter s 1, now := clockAfter s 1,
      lapses := s.lapses.drop 1 } := by rw [State.afterStore, setIfInBounds_eq_set _ _ h]

theorem clockAfter_afterStore (s : State) (i : Nat) (b : Byte) (avail : List Byte) (k : Nat) :
    clockAfter (s.afterStore i b avail) k = clockAfter s (k + 1) := clockAfter_of_ticked rfl rfl k

theorem tLastByTable_after (s : State) (d : Drained) (i : Nat) (b : Byte) (labels : List Label) (avail : List Byte) :
    tLastByTable s (d.after i b labels) = tLastByTable (s.afterStore i b avail) d := by
  have hafter : tLastByTable s (d.after i b labels) = clockAfter s (d.stored.length + 1) := if_neg (Nat.succ_ne_zero _)
  rw [hafter, tLastByTable, clockAfter_afterStore]
  split
  · next h0 => rw [h0]; rfl
  · rfl

/-- A POLL whose first stored byte is `b` ends as a POLL from the state in which `b` has been stored, but for the labels
emitted with it. -/
theorem finishByTable_after (s : State) (d : Drained) (i : Nat) (b : Byte) (labels : List Label) (avail : List Byte) :
    finishByTable s (d.after i b labels) =
      let u := finishByTable (s.afterStore i b avail) d
      { u with trace := labels ++ u.trace } := by
  have htLast := tLastByTable_after s d i b labels avail
  have hfires : firesByTable s (d.after i b labels) = firesByTable (s.afterStore i b avail) d := by
    rw [firesByTable, firesByTable, htLast, clockAfter_afterStore]
    rfl
  have hready : readyByTable s (d.after i b labels) = readyByTable (s.afterStore i b avail) d := by
    rw [readyByTable, readyByTable, hfires]
    rfl
  rw [finishByTable, finishByTable, hready, hfires, htLast, clockAfter_afterStore]
  simp [State.afterStore, Drained.after, storeAll, Nat.add_comm]

/-- Phase 1 over a sync byte and a PID that is rejected goes on searching behind them (R102, R107). -/
theorem drainByTable_reject {pid b : Byte} (rest : List Byte) (hpid : pid ≠ 0x00) (hb : b ≠ pid) :
    drainByTable pid .searchingSync 0 (0x55 :: b :: rest) =
      (drainByTable pid .searchingSync 0 rest).after 0 0x55 [.pidMismatch] := by
  rw [drainByTable_cons (by decide) (byteRow_sync pid 0 (b :: rest)),
    drainByTable_cons (by decide) (byteRow_reject rest ⟨rfl, hpid, hb⟩)]
  rfl

/-! ## A frame that comes byte by byte -/

/-- The byte `b` may stand at index `i` of a frame that a POLL with the operand `pid` keeps: `0x55` first, then a byte
that passes the filter (R73, R106, R107). -/
def FitsAt (pid : Byte) (i : Nat) (b : Byte) : Prop := (i = 0 → b = 0x55) ∧ (i = 1 → pid = 0x00 ∨ b = pid)

/-- The bytes `l` may stand in a frame from index `i` on. -/
def FitFrom (pid : Byte) : Nat → List Byte → Prop
  | _, [] => True
  | i, b :: l => FitsAt pid i b ∧ FitFrom pid (i + 1) l

theorem fitFrom_append {pid : Byte} {xs ys : List Byte} {i : Nat} :
    FitFrom pid i (xs ++ ys) ↔ FitFrom pid i xs ∧ FitFrom pid (i + xs.length) ys := by
  induction xs generalizing i with
  | nil => simp [FitFrom]
  | cons b xs ih => simp [FitFrom, ih, and_assoc, Nat.add_comm 1, Nat.add_assoc]

/-- Past the PID every byte fits. -/
theorem fitFrom_of_two_le (pid : Byte) (l : List Byte) {i : Nat} (h : 2 ≤ i) : FitFrom pid i l := by
  induction l generalizing i with
  | nil => trivial
  | cons b l ih => exact ⟨⟨by omega, by omega⟩, ih (by omega)⟩

theorem fitFrom_frame {pid p : Byte} (data : List Byte) (h : pid = 0x00 ∨ p = pid) :
    FitFrom pid 0 (0x55 :: p :: data) :=
  ⟨⟨fun _ => rfl, by omega⟩, ⟨by omega, fun _ => h⟩, fitFrom_of_two_le pid data (le_refl 2)⟩

/-- The decoder state inside phase 1 when `n` bytes of a frame have been stored (R22, R28, R109). -/
def stateAt (n : Nat) : DecoderState :=
  if n = 0 then .searchingSync else if n ≤ 10 then .accumulating else .frameReady

theorem stateAt_zero : stateAt 0 = .searchingSync := rfl

theorem stateAt_of_accumulating {n : Nat} (h1 : 1 ≤ n) (h10 : n ≤ 10) : stateAt n = .accumulating := by
  rw [stateAt, if_neg (by omega), if_pos h10]

theorem stateAt_eleven : stateAt 11 = .frameReady := rfl

theorem stateAt_ne_frameReady {n : Nat} (h10 : n ≤ 10) : stateAt n ≠ .frameReady := by
  rw [stateAt, if_pos h10]
  split <;> simp

/-- The label of R161 with the `n`th byte of a frame, `rest` being at hand after it (R109, R166; log 11). -/
def overflowAt (n : Nat) (rest : List Byte) : Option Label := if n = 11 ∧ rest ≠ [] then some .overflow else none

/-- A byte that fits is stored at its index (R106, R108, R109). -/
theorem byteRow_of_fitsAt {pid b : Byte} {n : Nat} (rest : List Byte) (hn : n ≤ 10) (h : FitsAt pid n b) :
    byteRow pid (stateAt n) n b rest = ⟨stateAt (n + 1), n + 1, some n, overflowAt (n + 1) rest⟩ := by
  obtain ⟨hsync, hpid⟩ := h
  by_cases h0 : n = 0
  · subst h0
    rw [hsync rfl]
    rfl
  · rw [stateAt_of_accumulating (by omega) hn]
    by_cases h9 : n ≤ 9
    · have hkeep : ¬(n = 1 ∧ pid ≠ 0x00 ∧ b ≠ pid) := fun ⟨h1, hp, hb⟩ => (hpid h1).elim hp hb
      rw [byteRow_store rest hkeep h9, stateAt_of_accumulating (by omega) (by omega), overflowAt, if_neg (by omega)]
    · obtain rfl : n = 10 := by omega
      rw [byteRow_eleventh rest h9, stateAt_eleven]
      cases rest <;> rfl

/-- Bytes stored in a row from index `n` on. -/
def storesFrom (n : Nat) (l : List Byte) : List (Nat × Byte) := (l.zipIdx n).map fun p => (p.2, p.1)

/-- Phase 1 over bytes that fit stores them in a row, then goes on with the bytes after them (R102). -/
theorem drainByTable_of_fitFrom {pid : Byte} (l rest : List Byte) {n : Nat} (hn : n + l.length ≤ 11)
    (h : FitFrom pid n l) : drainByTable pid (stateAt n) n (l ++ rest) =
      let d := drainByTable pid (stateAt (n + l.length)) (n + l.length) rest
      { d with
        stored := storesFrom n l ++ d.stored
        labels := (if l = [] then [] else (overflowAt (n + l.length) rest).toList) ++ d.labels } := by
  induction l generalizing n with
  | nil => rfl
  | cons b l ih =>
    obtain ⟨hb, hl⟩ := h
    simp only [List.length_cons] at hn
    rw [List.cons_append, drainByTable_cons (stateAt_ne_frameReady (by omega))
      (byteRow_of_fitsAt (l ++ rest) (by omega) hb)]
    simp only
    rw [ih (by omega) hl, List.length_cons, Nat.add_right_comm n 1, ← Nat.add_assoc]
    cases l with
    | nil => rfl
    | cons c l =>
      have hno : overflowAt (n + 1) (c :: l ++ rest) = none := if_neg (by simp at hn ⊢; omega)
      rw [hno]
      rfl

theorem storesFrom_length (n : Nat) (l : List Byte) : (storesFrom n l).length = l.length := by simp [storesFrom]

/-- What phase 1 leads to over bytes that fit, up to at most the eleventh of the frame, with `surplus` after the
eleventh (R102, R109). -/
def drainedFrame (n : Nat) (l surplus : List Byte) : Drained :=
  ⟨stateAt (n + l.length), n + l.length, storesFrom n l, (overflowAt (n + l.length) surplus).toList, surplus⟩

theorem drainByTable_frame {pid : Byte} {l surplus : List Byte} {n : Nat} (hne : l ≠ []) (h : FitFrom pid n l)
    (hn : n + l.length = 11 ∨ n + l.length ≤ 10 ∧ surplus = []) :
    drainByTable pid (stateAt n) n (l ++ surplus) = drainedFrame n l surplus := by
  rw [drainByTable_of_fitFrom l surplus (by omega) h, if_neg hne]
  rcases hn with hn | ⟨-, rfl⟩
  · rw [drainedFrame, hn, stateAt_eleven, drainByTable_ready]
    simp
  · simp [drainedFrame, drainByTable]

theorem storeAll_storesFrom (buf : Vector Byte 11) (l : List Byte) (n : Nat) (h : n + l.length ≤ 11) :
    (storeAll buf (storesFrom n l)).toList.take (n + l.length) = buf.toList.take n ++ l := storeAll_zipIdx buf l n h

/-- The frame that phase 1 has completed is handed out whole, with no further label (R109, R111). -/
theorem finishByTable_eleven {s : State} {d : Drained} (hst : d.st = .frameReady) (hlen : d.len = 11) :
    (finishByTable s d).resp = some (.frame (.complete 11)) ∧ (finishByTable s d).lastLen = 11 ∧
    (finishByTable s d).st = .searchingSync ∧ (finishByTable s d).len = 0 ∧ (finishByTable s d).trace = d.labels := by
  have hready : readyByTable s d = true := by rw [readyByTable, hst]; rfl
  have hfires : firesByTable s d = false := by simp [firesByTable, hst]
  obtain ⟨hresp, hlast⟩ := finishByTable_complete hready (by omega)
  obtain ⟨hst', hlen', -⟩ := finishByTable_of_ready hready
  rw [hlen] at hresp hlast
  exact ⟨hresp, hlast, hst', hlen', by simp [finishByTable, hfires, hlen]⟩

/-! ## A frame in bursts -/

/-! What a burst and the clock's advance leave alone (R64). -/

@[simp] theorem hear_cfg (l : List Byte) (d : Time) (s : State) : (hear l d s).cfg = s.cfg := rfl
@[simp] theorem hear_st (l : List Byte) (d : Time) (s : State) : (hear l d s).st = s.st := rfl
@[simp] theorem hear_len (l : List Byte) (d : Time) (s : State) : (hear l d s).len = s.len := rfl
@[simp] theorem hear_tLast (l : List Byte) (d : Time) (s : State) : (hear l d s).tLast = s.tLast := rfl
@[simp] theorem hear_lapses (l : List Byte) (d : Time) (s : State) : (hear l d s).lapses = s.lapses := rfl
@[simp] theorem hear_rxq (l : List Byte) (d : Time) (s : State) : (hear l d s).rxq = s.rxq ++ l := rfl
@[simp] theorem hear_now (l : List Byte) (d : Time) (s : State) : (hear l d s).now = s.now + d := rfl

/-- A POLL for one burst, then the POLLs for the bursts after it. -/
theorem pollBursts_cons {pid : Byte} {bytes : List Byte} {d : Time} {more : List (List Byte × Time)} {s u t : State}
    {r : List (Option Response)} (hexec : exec (.poll pid) (hear bytes d s) = .next u)
    (hmore : pollBursts pid more u = some (t, r)) : pollBursts pid ((bytes, d) :: more) s = some (t, u.resp :: r) := by
  simp only [pollBursts, hexec, hmore, Option.map_some]

theorem pollBursts_nil (pid : Byte) (s : State) : pollBursts pid [] s = some (s, []) := rfl

/-- The POLLs for a run of bursts, then those for the bursts after it. -/
theorem pollBursts_append {pid : Byte} {xs ys : List (List Byte × Time)} {s u t : State} {r r' : List (Option Response)}
    (hxs : pollBursts pid xs s = some (u, r)) (hys : pollBursts pid ys u = some (t, r')) :
    pollBursts pid (xs ++ ys) s = some (t, r ++ r') := by
  induction xs generalizing s r with
  | nil =>
    obtain ⟨rfl, rfl⟩ := Prod.mk.inj (Option.some.inj hxs)
    exact hys
  | cons x xs ih =>
    obtain ⟨bytes, d⟩ := x
    cases hexec : exec (.poll pid) (hear bytes d s) with
    | next v =>
      simp only [pollBursts, hexec, Option.map_eq_some_iff] at hxs
      obtain ⟨⟨w, r₁⟩, hw, heq⟩ := hxs
      obtain ⟨rfl, rfl⟩ := Prod.mk.inj heq
      exact pollBursts_cons hexec (ih hw)
    | fault _ => simp [pollBursts, hexec] at hxs
    | refused _ => simp [pollBursts, hexec] at hxs

/-- Between POLLs that take no time, under the parameters `params`: the bytes `done` of a frame have come and are
stored, the last at the clock as it stands, and the frame is not complete. -/
structure FrameInProgress (params : Params) (done : List Byte) (s : State) : Prop where
  cfg : s.cfg = params
  legal : params.Legal
  bound : s.bound = true
  lapses : s.lapses = []
  rxq : s.rxq = []
  st : s.st = stateAt done.length
  len : s.len.toNat = done.length
  short : done.length ≤ 10
  stored : s.buf.toList.take done.length = done
  stamped : done ≠ [] → s.tLast = s.now

/-- The frame has been handed out, and stands in the buffer; nothing is at hand. -/
structure FrameDelivered (frame : List Byte) (s : State) : Prop where
  bound : s.bound = true
  rxq : s.rxq = []
  st : s.st = .searchingSync
  len : s.len = 0
  lastLen : s.lastLen.toNat = frame.length
  stored : s.buf.toList.take frame.length = frame

section Bursts
variable {params : Params}

theorem FrameInProgress.inRules {done : List Byte} {s : State} (h : FrameInProgress params done s) :
    RegistersInRules s ∧ (s.st = .searchingSync → s.len = 0) := by
  obtain ⟨-, -, -, -, -, hst, hlen, hshort, -, -⟩ := h
  rw [RegistersInRules, hst, hlen]
  by_cases h0 : done.length = 0
  · rw [h0, stateAt_zero]
    exact ⟨by simp, fun _ => BitVec.eq_of_toNat_eq (hlen.trans h0)⟩
  · rw [stateAt_of_accumulating (by omega) hshort]
    exact ⟨by omega, fun hs => by cases hs⟩

/-- A POLL that finds the next bytes of the frame stores them in a row. -/
theorem FrameInProgress.exec_burst {done l : List Byte} {s : State} {pid : Byte} (h : FrameInProgress params done s)
    (hne : l ≠ []) (hfit : FitFrom pid done.length l) (hn : done.length + l.length ≤ 11) (d : Time) :
    exec (.poll pid) (hear l d s) = .next (finishByTable (hear l d s) (drainedFrame done.length l [])) := by
  obtain ⟨hr, hss⟩ := h.inRules
  have hdrain := drainByTable_frame (surplus := []) hne hfit
    ((Nat.lt_or_eq_of_le hn).symm.imp_right fun hlt => ⟨Nat.le_of_lt_succ hlt, rfl⟩)
  rw [List.append_nil] at hdrain
  rw [execPoll_eq_pollByTable pid (s := hear l d s) h.bound hr hss, pollByTable, hear_st, hear_len, hear_rxq, h.rxq,
    List.nil_append, h.st, h.len, hdrain]

/-- The bytes of a burst stand in the buffer after those before it. -/
theorem FrameInProgress.stored_burst {done l : List Byte} {s : State} (h : FrameInProgress params done s)
    (hn : done.length + l.length ≤ 11) :
    (storeAll s.buf (storesFrom done.length l)).toList.take (done ++ l).length = done ++ l := by
  rw [List.length_append, storeAll_storesFrom s.buf l done.length hn, h.stored]

/-- A burst that leaves the frame short of eleven bytes: Incomplete, and the frame is in progress. -/
theorem FrameInProgress.poll_short {done l : List Byte} {s : State} {pid : Byte} (h : FrameInProgress params done s)
    (hne : l ≠ []) (hfit : FitFrom pid done.length l) (hn : done.length + l.length ≤ 10) (d : Time) :
    ∃ t, exec (.poll pid) (hear l d s) = .next t ∧ t.resp = some (.frame .incomplete) ∧
      FrameInProgress params (done ++ l) t := by
  have hpos : 0 < l.length := List.length_pos_iff.2 hne
  have hstored : (drainedFrame done.length l []).stored.length ≠ 0 := by rw [drainedFrame, storesFrom_length]; omega
  have hst : (drainedFrame done.length l []).st = .accumulating := stateAt_of_accumulating (by omega) hn
  have hlapses : (hear l d s).lapses = [] := h.lapses
  have hready : readyByTable (hear l d s) (drainedFrame done.length l []) = false := by
    rw [readyByTable, hst, firesByTable_of_stored hlapses (h.cfg ▸ h.legal) hstored]
    rfl
  obtain ⟨-, hst', hlen', -⟩ := finishByTable_of_not_ready hready
  obtain ⟨hresp, -⟩ := finishByTable_output_of_not_ready hready
  refine ⟨_, h.exec_burst hne hfit (by omega) d, hresp, ?_⟩
  exact {
    cfg := h.cfg
    legal := h.legal
    bound := h.bound
    lapses := (congrArg (List.drop _) hlapses).trans List.drop_nil
    rxq := rfl
    st := by rw [hst', List.length_append]; rfl
    len := by rw [hlen', List.length_append]; exact toNat_ofNat_of_le_maxFrame (Nat.le_succ_of_le hn)
    short := by rw [List.length_append]; exact hn
    stored := h.stored_burst (by omega)
    stamped := fun _ => by
      show tLastByTable _ _ = clockAfter _ _
      rw [tLastByTable, if_neg hstored, clockAfter_of_noLapse hlapses, clockAfter_of_noLapse hlapses] }

/-- A burst that brings the eleventh byte: Complete(11), whatever the clock has done. -/
theorem FrameInProgress.poll_eleventh {done l : List Byte} {s : State} {pid : Byte} (h : FrameInProgress params done s)
    (hfit : FitFrom pid done.length l) (hn : done.length + l.length = 11) (d : Time) :
    ∃ t, exec (.poll pid) (hear l d s) = .next t ∧ t.resp = some (.frame (.complete 11)) ∧
      FrameDelivered (done ++ l) t := by
  have hne : l ≠ [] := by
    rintro rfl
    have := h.short
    simp at hn
    omega
  obtain ⟨hresp, hlast, hst, hlen, -⟩ := finishByTable_eleven (s := hear l d s) (d := drainedFrame done.length l [])
    (by rw [drainedFrame, hn, stateAt_eleven]) hn
  refine ⟨_, h.exec_burst hne hfit (Nat.le_of_eq hn) d, hresp, ?_⟩
  exact {
    bound := h.bound
    rxq := rfl
    st := hst
    len := hlen
    lastLen := by rw [hlast, List.length_append, hn]; rfl
    stored := h.stored_burst (Nat.le_of_eq hn) }

/-- A silence of the threshold or more hands out a frame in progress of two bytes or more (R110, R111). -/
theorem FrameInProgress.poll_silence {frame : List Byte} {s : State} (pid : Byte) (h : FrameInProgress params frame s)
    (h2 : 2 ≤ frame.length) {silence : Time} (hsil : params.breakThreshold.toNat ≤ silence.toNat) :
    ∃ t, exec (.poll pid) (hear [] silence s) = .next t ∧
      t.resp = some (.frame (.complete (BitVec.ofNat 4 frame.length))) ∧ FrameDelivered frame t := by
  obtain ⟨hr, hss⟩ := h.inRules
  have hst : s.st = .accumulating := h.st.trans (stateAt_of_accumulating (by omega) h.short)
  have hlen : s.len = BitVec.ofNat 4 frame.length := by rw [← h.len]; simp
  have hq : (hear [] silence s).rxq = [] := by rw [hear_rxq, h.rxq]; rfl
  have htl : s.tLast = s.now := h.stamped (by rintro rfl; simp at h2)
  have helapsed : clockAfter (hear [] silence s) 1 - (hear [] silence s).tLast = silence := by
    rw [clockAfter_of_noLapse (s := hear [] silence s) h.lapses, hear_now, hear_tLast, htl, BitVec.add_comm,
      BitVec.add_sub_cancel]
  have hready : readyByTable (hear [] silence s)
      (drainedUnstored (hear [] silence s).st (hear [] silence s).len.toNat [] []) = true := by
    rw [readyByTable, firesByTable_unstored, helapsed, hear_st, hear_cfg, h.cfg, decide_eq_true (And.intro hst hsil),
      Bool.or_true]
  have hexec := execPoll_noByte pid (s := hear [] silence s) h.bound hr hss hq
  have h2' : 2 ≤ (hear [] silence s).len.toNat := h2.trans_eq h.len.symm
  rw [finishByTable_unstored_of_ready hready, if_pos h2', if_pos h2'] at hexec
  exact ⟨_, hexec, congrArg (fun n => some (Response.frame (.complete n))) hlen, {
    bound := h.bound
    rxq := rfl
    st := rfl
    len := rfl
    lastLen := h.len
    stored := h.stored }⟩

/-- After the frame has been handed out, a POLL that finds no byte hands out nothing, and leaves the frame (R201). -/
theorem FrameDelivered.poll {frame : List Byte} {s : State} (pid : Byte) (h : FrameDelivered frame s) (d : Time) :
    ∃ t, exec (.poll pid) (hear [] d s) = .next t ∧ t.resp = some (.frame .incomplete) ∧ FrameDelivered frame t := by
  have hnone : ∀ b ∈ (hear [] d s).rxq, b ≠ 0x55 := by simp [hear, h.rxq]
  exact ⟨_, execPoll_withoutSync pid (s := hear [] d s) h.bound h.st h.len hnone, rfl, {
    bound := h.bound
    rxq := rfl
    st := h.st
    len := h.len
    lastLen := h.lastLen
    stored := h.stored }⟩

/-- Bursts that leave the frame short of eleven bytes: every POLL returns Incomplete, and the frame is in progress. -/
theorem FrameInProgress.pollBursts_short {pid : Byte} (bursts : List (List Byte × Time)) {done : List Byte} {s : State}
    (h : FrameInProgress params done s) (hne : ∀ burst ∈ bursts, burst.1 ≠ [])
    (hfit : FitFrom pid done.length (bursts.map Prod.fst).flatten)
    (hn : done.length + (bursts.map Prod.fst).flatten.length ≤ 10) :
    ∃ t, pollBursts pid bursts s = some (t, List.replicate bursts.length (some (.frame .incomplete))) ∧
      FrameInProgress params (done ++ (bursts.map Prod.fst).flatten) t := by
  induction bursts generalizing done s with
  | nil => exact ⟨s, rfl, by simpa using h⟩
  | cons burst bursts ih =>
    obtain ⟨l, d⟩ := burst
    obtain ⟨hl, hbursts⟩ := List.forall_mem_cons.1 hne
    rw [List.map_cons, List.flatten_cons, fitFrom_append, ← List.length_append] at hfit
    rw [List.map_cons, List.flatten_cons, List.length_append, ← Nat.add_assoc] at hn
    obtain ⟨u, hexec, hresp, hu⟩ := h.poll_short hl hfit.1 (Nat.le_of_add_right_le hn) d
    obtain ⟨t, hmore, ht⟩ := ih hu hbursts hfit.2 (by rw [List.length_append]; exact hn)
    refine ⟨t, ?_, by simpa using ht⟩
    rw [pollBursts_cons hexec hmore, hresp]
    rfl

/-- A frame of at most ten bytes in bursts, then a silence, then another POLL: only the POLL after the silence hands it
out. -/
theorem FrameInProgress.pollBursts_silence {pid : Byte} {bursts : List (List Byte × Time)} {frame : List Byte}
    {s : State} (h : FrameInProgress params [] s) (hframe : (bursts.map Prod.fst).flatten = frame)
    (hfit : FitFrom pid 0 frame) (hne : ∀ burst ∈ bursts, burst.1 ≠ []) (h2 : 2 ≤ frame.length)
    (h10 : frame.length ≤ 10) {silence : Time} (hsil : params.breakThreshold.toNat ≤ silence.toNat) (later : Time) :
    ∃ t, pollBursts pid (bursts ++ [([], silence), ([], later)]) s =
        some (t, List.replicate bursts.length (some (.frame .incomplete)) ++
          [some (.frame (.complete (BitVec.ofNat 4 frame.length))), some (.frame .incomplete)]) ∧
      FrameDelivered frame t := by
  subst hframe
  obtain ⟨u, hu, hin⟩ := h.pollBursts_short (pid := pid) bursts hne hfit (by simpa using h10)
  rw [List.nil_append] at hin
  obtain ⟨v, hexec, hresp, hv⟩ := hin.poll_silence pid h2 hsil
  obtain ⟨t, hlast, hresp', ht⟩ := hv.poll pid later
  have hend := pollBursts_cons hexec (pollBursts_cons hlast (pollBursts_nil pid t))
  rw [hresp, hresp'] at hend
  exact ⟨t, pollBursts_append hu hend, ht⟩

/-- A frame of eleven bytes in bursts, then two POLLs that find no byte: only the POLL for the last burst hands it
out. -/
theorem FrameInProgress.pollBursts_eleven {pid : Byte} {bursts : List (List Byte × Time)} {frame : List Byte}
    {s : State} (h : FrameInProgress params [] s) (hframe : (bursts.map Prod.fst).flatten = frame)
    (hfit : FitFrom pid 0 frame) (hne : ∀ burst ∈ bursts, burst.1 ≠ []) (h11 : frame.length = 11)
    (silence later : Time) :
    ∃ t n, pollBursts pid (bursts ++ [([], silence), ([], later)]) s =
        some (t, List.replicate n (some (.frame .incomplete)) ++
          [some (.frame (.complete 11)), some (.frame .incomplete), some (.frame .incomplete)]) ∧
      FrameDelivered frame t := by
  rcases List.eq_nil_or_concat bursts with rfl | ⟨before, ⟨l, d⟩, rfl⟩
  · subst hframe
    cases h11
  have hsplit : frame = (before.map Prod.fst).flatten ++ l := by simp [← hframe]
  subst hsplit
  rw [fitFrom_append, Nat.zero_add] at hfit
  rw [List.length_append] at h11
  have hl : 0 < l.length := List.length_pos_iff.2 (hne (l, d) (by simp))
  obtain ⟨u, hu, hin⟩ := h.pollBursts_short (pid := pid) before (fun b hb => hne b (by simp [hb])) hfit.1
    (by rw [List.length_nil]; omega)
  rw [List.nil_append] at hin
  obtain ⟨v, hexec, hresp, hv⟩ := hin.poll_eleventh hfit.2 h11 d
  obtain ⟨w, hexec₁, hresp₁, hw⟩ := hv.poll pid silence
  obtain ⟨t, hexec₂, hresp₂, ht⟩ := hw.poll pid later
  have hend := pollBursts_cons hexec (pollBursts_cons hexec₁ (pollBursts_cons hexec₂ (pollBursts_nil pid t)))
  rw [hresp, hresp₁, hresp₂] at hend
  refine ⟨t, before.length, ?_, ht⟩
  rw [List.concat_eq_append, List.append_assoc]
  exact pollBursts_append hu hend

end Bursts

/-! ## The statements -/

/-- Settles O27: the phases of a POLL are the table's drain and its end. -/
theorem pollIsTheTransitionTable : Obligations.PollIsTheTransitionTable :=
  fun _ pid hb hr hss => execPoll_eq_pollByTable pid hb hr hss

/-- Settles O31: phase 1 stops before the end of the bytes only at the eleventh byte of a frame. -/
theorem pollConsumesAPrefix : Obligations.PollConsumesAPrefix := by
  intro s pid hb hr hss hst
  obtain ⟨used, hused, hshorter, hst', hlen'⟩ := drainByTable_left pid s.rxq s.st s.len.toNat
  obtain ⟨-, -, -, heleven, hleft⟩ := drainByTable_rules pid s.rxq s.st s.len.toNat
    (fun hs => by rw [hss hs]; rfl) hr.2 hr.1
  refine ⟨_, used, execPoll_eq_pollByTable pid hb hr hss, hused, rfl, hshorter, fun hne => ?_⟩
  have hready := hleft hne
  have hlen := heleven hready hst
  obtain ⟨hresp, -⟩ := finishByTable_complete (s := s) (d := drainByTable pid s.st s.len.toNat s.rxq)
    (by simp [readyByTable, hready]) (by omega)
  rw [hlen] at hresp
  exact ⟨hst'.trans hready, hlen'.trans hlen, hresp⟩

/-- Settles O32: each byte is discarded, and the break check finds no frame in progress. -/
theorem withoutSyncNoFrame : Obligations.WithoutSyncNoFrame := by
  intro s pid hb hp hst hlen h
  rw [execPoll_withoutSync pid hb hst hlen h, ← hp]

/-- Settles O33: the two bytes leave a store, its clock sample and the label, and phase 1 goes on from there. -/
theorem rejectGoesOnAfterTheRejectedByte : Obligations.RejectGoesOnAfterTheRejectedByte := by
  intro s pid b rest hb hst hlen hq hpid hne
  have hnat : s.len.toNat = 0 := by rw [hlen]; rfl
  have hr := registersInRules_of_searching hst hlen
  have hwhole := execPoll_eq_pollByTable pid hb hr fun _ => hlen
  have hrest := execPoll_eq_pollByTable pid (s := s.afterStore 0 0x55 rest) hb hr fun _ => hlen
  have htable : pollByTable pid (s.afterStore 0 0x55 rest) =
      finishByTable (s.afterStore 0 0x55 rest) (drainByTable pid .searchingSync 0 rest) := by
    rw [pollByTable, ← hst, ← hnat]
    rfl
  rw [pollByTable, hst, hnat, hq, drainByTable_reject rest hpid hne, finishByTable_after, ← htable] at hwhole
  rw [afterStore_eq_set s (by decide)] at hwhole hrest
  exact ⟨_, hrest, hwhole⟩

/-- Settles O35: the eleven bytes are stored in a row, and the ready frame is delivered. -/
theorem elevenBytesForceCompletion : Obligations.ElevenBytesForceCompletion := by
  intro s pid p data surplus hb hst hlen hq hdata hpid
  have hnat : s.len.toNat = 0 := by rw [hlen]; rfl
  have heleven : 0 + (0x55 :: p :: data).length = 11 := by simp [hdata]
  have hdrain : drainByTable pid s.st s.len.toNat s.rxq = drainedFrame 0 (0x55 :: p :: data) surplus := by
    rw [hst, hnat, hq]
    exact drainByTable_frame (by simp) (fitFrom_frame data hpid) (.inl heleven)
  have hexec := execPoll_eq_pollByTable pid hb (registersInRules_of_searching hst hlen) fun _ => hlen
  have hbuf := storeAll_storesFrom s.buf (0x55 :: p :: data) 0 (Nat.le_of_eq heleven)
  rw [heleven, List.take_of_length_le (by simp)] at hbuf
  rw [pollByTable, hdrain] at hexec
  obtain ⟨hresp, hlast, hst', hlen', htrace⟩ := finishByTable_eleven (s := s)
    (d := drainedFrame 0 (0x55 :: p :: data) surplus) (by rw [drainedFrame, heleven, stateAt_eleven]) heleven
  refine ⟨_, hexec, hresp, hlast, hbuf, rfl, hst', hlen', htrace.trans ?_⟩
  rw [drainedFrame, heleven]
  cases surplus <;> rfl

/-- Settles O38: nothing is stored, so the break check compares with `t_last` as it was, and decides. -/
theorem silentPollCompletesOrWaits : Obligations.SilentPollCompletesOrWaits := by
  intro s pid hb hp hr hst hq
  have hfires : firesByTable s (drainedUnstored s.st s.len.toNat [] []) =
      decide (s.cfg.breakThreshold.toNat ≤ (clockAfter s 1 - s.tLast).toNat) := by
    simp only [firesByTable_unstored, hst, true_and]
  have hready : readyByTable s (drainedUnstored s.st s.len.toNat [] []) =
      decide (s.cfg.breakThreshold.toNat ≤ (clockAfter s 1 - s.tLast).toNat) := by
    rw [readyByTable, hfires, drainedUnstored, hst]
    rfl
  rw [execPoll_noByte pid hb hr (fun hs => by simp [hst] at hs) hq]
  refine ⟨fun hbelow => ?_, fun hreached h2 => ?_, fun hreached h1 => ?_⟩
  · rw [finishByTable_unstored_of_not_ready (hready.trans (decide_eq_false (Nat.not_le.2 hbelow))), ← hq, ← hp]
  · rw [finishByTable_unstored_of_ready (hready.trans (decide_eq_true hreached)),
      if_pos (hfires.trans (decide_eq_true hreached)), if_pos h2, if_pos h2, if_pos h2, ← hq, ← hp]
    rfl
  · have h2 : ¬2 ≤ s.len.toNat := by rw [h1]; decide
    rw [finishByTable_unstored_of_ready (hready.trans (decide_eq_true hreached)),
      if_pos (hfires.trans (decide_eq_true hreached)), if_neg h2, if_neg h2, if_neg h2, ← hq, ← hp]
    rfl

/-- Settles O39: a ready frame takes no byte and no break, and is completed by its length. -/
theorem pollEnteredReadyDeliversOrDrops : Obligations.PollEnteredReadyDeliversOrDrops := by
  intro s pid hb hp hst hle
  have hr : RegistersInRules s := ⟨hle, fun hs => by simp [hst] at hs⟩
  have hdrain : drainByTable pid s.st s.len.toNat s.rxq = drainedUnstored s.st s.len.toNat [] s.rxq := by
    rw [hst, drainByTable_ready, drainedUnstored]
  have hready : readyByTable s (drainedUnstored s.st s.len.toNat [] s.rxq) = true := by
    rw [readyByTable, drainedUnstored, hst]
    rfl
  have hfires : ¬firesByTable s (drainedUnstored s.st s.len.toNat [] s.rxq) = true := by
    simp [firesByTable_unstored, hst]
  rw [execPoll_eq_pollByTable pid hb hr fun hs => by simp [hst] at hs, pollByTable, hdrain,
    finishByTable_unstored_of_ready hready, if_neg hfires, ← hp]
  rfl

/-- Settles O40: short of eleven bytes the POLL after the silence delivers, else the POLL for the last burst; the POLLs
before it return Incomplete, and so do those after it. -/
theorem frameInBurstsIsDeliveredOnce : Obligations.FrameInBurstsIsDeliveredOnce := by
  intro s pid data bursts silence later hb hst hlen hq hlapses hlegal _ hframe hdata hne hsil
  have hstart : FrameInProgress s.cfg [] s :=
    ⟨rfl, hlegal, hb, hlapses, hq, hst, by rw [hlen]; rfl, Nat.zero_le _, rfl, fun h => absurd rfl h⟩
  have hfit : FitFrom pid 0 (0x55 :: pid :: data) := fitFrom_frame data (.inr rfl)
  have hlength : (0x55 :: pid :: data).length = 2 + data.length := Nat.add_comm _ 2
  by_cases h8 : data.length ≤ 8
  · obtain ⟨t, hpolls, ht⟩ := hstart.pollBursts_silence hframe hfit hne (by omega) (by omega) hsil later
    rw [hlength] at hpolls
    refine ⟨t, _, hpolls, by simp, fun _ => rfl, ht.lastLen.trans hlength, ?_⟩
    rw [← hlength]
    exact ht.stored
  · obtain ⟨t, n, hpolls, ht⟩ := hstart.pollBursts_eleven hframe hfit hne (by omega) silence later
    have h11 : 2 + data.length = 11 := by omega
    refine ⟨t, _, hpolls, by simp [h11], fun h => absurd h h8, ht.lastLen.trans hlength, ?_⟩
    rw [← hlength]
    exact ht.stored

/-- Settles O41: a Complete comes from a ready frame of 2 to 11 bytes, after which the decoder searches. -/
theorem deliveredFrameIsReadableAndHandedOutOnce : Obligations.DeliveredFrameIsReadableAndHandedOutOnce := by
  intro s t pid later n h hexec hresp
  obtain ⟨hb, -, -⟩ := execPoll_next hexec
  obtain ⟨htable, -⟩ := execPoll_between pid hb h
  obtain rfl := Host.Outcome.next.inj (htable.symm.trans hexec)
  obtain ⟨-, -, hle, hsync⟩ := h.drained pid
  have hnat := toNat_ofNat_of_le_maxFrame hle
  obtain ⟨hready, h2, rfl⟩ := complete_of_finishByTable hresp
  obtain ⟨-, hlast⟩ := finishByTable_complete hready h2
  obtain ⟨hst, hlen, -⟩ := finishByTable_of_ready hready
  obtain ⟨u, hval, hverdict⟩ := execValidate_resp (pollByTable pid s) ⟨h2.trans_eq hnat.symm, hnat.trans_le hle⟩
  refine ⟨hlast, hsync (by omega), ⟨_, rfl, ?_⟩, ⟨u, _, hval, hverdict⟩, _,
    execPoll_withoutSync later hb hst hlen (by simp), rfl, rfl, hlast⟩
  exact congrArg (fun n => some (Response.snapshot _ n)) hlast

/-- Settles O58: each row of R114 leads along an edge the statement allows. -/
theorem stateChangesAreThoseOfTheTable : Obligations.StateChangesAreThoseOfTheTable := by
  intro i s t hi h
  have hrow := exec_tableRow hi h
  generalize s.st = st, s.len = len, t.st = st', t.len = len' at hrow
  cases hrow with
  | stay hreader =>
    cases st with
    | searchingSync => simpa [IsReader] using hreader
    | accumulating => simpa [IsReader] using hreader
    | frameReady => simpa [IsReader] using hreader
  | init => simp
  | syncAccept => simp
  | pidReject => simp
  | eleventh => simp
  | breakSeen => simp
  | deliver h2 => simpa using h2
  | dropShort h2 => simpa using h2

/-- Settles O8: a sync event needs SearchingSync, and from the third byte on the PID filter does not apply. -/
theorem syncByteInsideAFrameIsData : Obligations.SyncByteInsideAFrameIsData := by
  refine fun pid b len => ⟨fun c => ⟨fun h => ?_, fun h => ?_⟩, fun h2 h10 => ?_⟩
  · cases searching_of_decode_sync (.inl h)
  · cases searching_of_decode_sync (.inr h)
  · refine Laws.EncodeDecode.bStore b _ rfl ⟨pid, rfl, rfl, ⟨Nat.le_of_succ_le h2, h10⟩, fun ⟨h1, _⟩ => ?_⟩
    rw [show len = 1 from h1] at h2
    exact absurd h2 (by decide)

/-- Settles O11: `fetch` by the phase, the state and the bytes at hand. -/
theorem stepRunsTheDueStepOfThePoll : Obligations.StepRunsTheDueStepOfThePoll := by
  refine fun s pid i => ⟨fun b rest hp hst hq hd => ?_, fun hp hend => ?_, fun hp hst hd => ?_, fun hp hst => ?_⟩
  · have hdue : fetchPollStep ⟨pid, .drain⟩ s = fetchedOf s s.rxPop (.byte b) := by simp [fetchPollStep, hst, hq]
    rw [step, fetch_of_poll hp, hdue, perform_fetchedOf hd, rxPop, hq, List.tail_cons]
  · rw [step_break hp hend, execTBreak_eq ⟨pid, hp⟩ hend]
  · have hdue : fetchPollStep ⟨pid, .settle⟩ s = fetchedOf s s .event := if_pos hst
    rw [step, fetch_of_poll hp, hdue, perform_fetchedOf hd]
  · have hdue : fetchPollStep ⟨pid, .settle⟩ s = .quiet (s.closePoll .incomplete) := if_neg hst
    rw [step, fetch_of_poll hp, hdue, perform_quiet, closePoll]

/-- Settles O16: `execInit` is written with these values. -/
theorem initWritesResetValuesAndBinds : Obligations.InitWritesResetValuesAndBinds := fun _ => rfl

/-- Settles O17: selected, B_SYNC_DISCARD emits its label. -/
theorem syncDiscardLosesTheByte : Obligations.SyncDiscardLosesTheByte :=
  fun _ pid _ hp hst hb => execBSyncDiscard_eq ⟨⟨pid, hp⟩, hst, hb⟩

/-- Settles O18: selected, B_SYNC_ACCEPT has the effect `syncAccept_eq` spells out. -/
theorem syncAcceptStartsAFrame : Obligations.SyncAcceptStartsAFrame := by
  intro s pid hp hst
  rw [← syncAccept_eq]
  exact execBSyncAccept_eq ⟨⟨pid, hp⟩, hst, rfl⟩

/-- Settles O19: selected, B_PID_REJECT aborts; and it is selected at `len = 1` only. -/
theorem pidRejectAbortsTheFrame : Obligations.PidRejectAbortsTheFrame := by
  refine ⟨fun s pid b hp hst hlen hpid hb => execBPidReject_eq ⟨pid, hp, hst, hlen, hpid, hb⟩,
    fun s t b hlen h => ?_⟩
  obtain ⟨⟨pid, -, -, h1, -⟩, -⟩ := execBPidReject_next h
  exact hlen h1

/-- Settles O20: selected, B_STORE has the effect `storeByte_eq` spells out. -/
theorem storeAppendsTheByte : Obligations.StoreAppendsTheByte := by
  intro s pid b hp hst low high hkeep
  rw [← storeByte_eq b hst high]
  exact execBStore_eq ⟨pid, hp, hst, ⟨low, high⟩, hkeep⟩

/-- Settles O23: the break check by the silence at its clock sample. -/
theorem breakCheckFiresAtTheThreshold : Obligations.BreakCheckFiresAtTheThreshold := by
  intro s pid hp hd
  rw [execTBreak_eq ⟨pid, hp⟩ hd, ← clockTick_silent]
  refine ⟨fun hsil => ?_, fun hsil => ?_⟩
  · rw [breakCheck_of_silent hsil, clockTick_eq]
    simp [settlePhase, emit, hp]
  · rw [breakCheck_of_not_silent hsil, clockTick_eq]
    simp [settlePhase, hp]

/-- Settles O24: selected, DELIVER has its effect. -/
theorem deliverHandsOutTheLength : Obligations.DeliverHandsOutTheLength :=
  fun _ pid hp hst h2 h11 => execDeliver_eq ⟨⟨pid, hp⟩, hst, h2, h11⟩

/-- Settles O25: selected, DROP_SHORT has its effect. -/
theorem dropShortIsSilent : Obligations.DropShortIsSilent :=
  fun _ pid hp hst h2 => execDropShort_eq ⟨⟨pid, hp⟩, hst, h2⟩

/-- Settles O26: the two tests of `execPoll`, in their order. -/
theorem pollIsRefusedBeforeInitAndOutsideTheRules : Obligations.PollIsRefusedBeforeInitAndOutsideTheRules := by
  refine fun s pid => ⟨fun hb => if_pos hb, fun hb hr => ?_, fun hb hr => ⟨_, execPoll_eq hb hr⟩⟩
  have hout : s.inRules = false := decide_eq_false hr
  simp [exec, execPoll, hb, hout]

/-- Settles O43: `execLastFrame` is written with these values. -/
theorem lastFrameReturnsTheLiveRegisters : Obligations.LastFrameReturnsTheLiveRegisters := fun _ => rfl

end Sys2Proof.Machine
end

section
/-! PROOFS of the family on the checksum validator: the answers of CHECKSUM and VALIDATE, the end-around-carry sum as a
function of the plain sum, and the checksum of the frame in the buffer. -/

namespace Sys2Proof.Machine
open State

/-! ## The answers of CHECKSUM and VALIDATE -/

theorem execChecksum_eq {n : Len} (h : n.toNat ≤ 11) (s : State) : exec (.checksum n) s =
    .next { s with resp := some (.checksum (checksum s.buf.toList n.toNat)), trace := [] } :=
  if_pos (decide_eq_true h)

theorem execChecksum_refused {n : Len} (h : 11 < n.toNat) (s : State) :
    exec (.checksum n) s = .refused .checksumOperand :=
  if_neg (by simpa [checksumOperandOk] using h)

theorem verdictOf_of_eq {c r : Byte} (h : c = r) : verdictOf c r = .matching c r := if_pos h

theorem verdictOf_of_ne {c r : Byte} (h : c ≠ r) : verdictOf c r = .mismatch c r := if_neg h

/-- Match exactly when the two values are equal (R142). -/
theorem isMatch_verdictOf {c r : Byte} : (verdictOf c r).isMatch = true ↔ c = r := by
  by_cases h : c = r
  · rw [verdictOf_of_eq h]
    exact iff_of_true rfl h
  · rw [verdictOf_of_ne h]
    exact iff_of_false Bool.false_ne_true h

/-- VALIDATE in range answers the comparison, with a label where it is no match (R142, R164). -/
theorem execValidate_eq {L : Len} (h : 2 ≤ L.toNat ∧ L.toNat ≤ 11) (s : State) : exec (.validate L) s =
    .next { s with resp := some (.verdict (validation L s)),
                   trace := if (validation L s).isMatch = true then [] else [.checksumMismatch] } := by
  have hin : exec (.validate L) s = .next _ := if_pos (decide_eq_true h)
  rw [hin]
  split <;> rfl

theorem execValidate_refused {L : Len} (h : L.toNat < 2 ∨ 11 < L.toNat) (s : State) :
    exec (.validate L) s = .refused .validateOperand :=
  if_neg (by simp only [validateOperandOk, decide_eq_true_eq]; omega)

/-! ## The end-around-carry sum (R143) -/

/-- The accumulator after bytes of plain sum `S`: 0 for 0, else the residue of `S` modulo 255 taken from 1 to 255
(R143 law 1). -/
def endAroundSum (S : Nat) : Nat := if S = 0 then 0 else (S - 1) % 255 + 1

theorem sumStepNat_endAroundSum (S : Nat) (b : Byte) : sumStepNat (endAroundSum S) b = endAroundSum (S + b.toNat) := by
  have hb := b.isLt
  unfold sumStepNat endAroundSum
  split_ifs <;> omega

theorem foldl_sumStepNat (l : List Byte) (S : Nat) :
    l.foldl sumStepNat (endAroundSum S) = endAroundSum (S + (l.map BitVec.toNat).sum) := by
  induction l generalizing S with
  | nil => rfl
  | cons b l ih => rw [List.foldl_cons, sumStepNat_endAroundSum, ih, List.map_cons, List.sum_cons, Nat.add_assoc]

/-- The checksum is a function of the plain sum alone (R143 law 1). -/
theorem toNat_checksum_eq_endAroundSum (B : List Byte) (n : Nat) :
    (checksum B n).toNat = 255 - endAroundSum ((summedBytes B n).map BitVec.toNat).sum := by
  have hfold : (summedBytes B n).foldl sumStepNat 0 = endAroundSum (0 + ((summedBytes B n).map BitVec.toNat).sum) :=
    foldl_sumStepNat _ 0
  rw [toNat_checksum, toNat_checksumAcc, hfold, Nat.zero_add]

theorem summedBytes_of_le_one (B : List Byte) {n : Nat} (h : n ≤ 1) : summedBytes B n = [] :=
  List.drop_eq_nil_of_le ((List.length_take_le n B).trans h)

/-- Nothing summed, the checksum is the complement of 0 (R143 law 4). -/
theorem checksum_of_le_one (B : List Byte) {n : Nat} (h : n ≤ 1) : checksum B n = 0xFF := by
  rw [checksum, checksumAcc, summedBytes_of_le_one B h]
  rfl

/-- One byte summed, the checksum is its complement (R147). -/
theorem checksum_of_summedBytes_singleton {B : List Byte} {n : Nat} {b : Byte} (h : summedBytes B n = [b]) :
    checksum B n = ~~~b := by
  have hb := b.isLt
  apply BitVec.eq_of_toNat_eq
  rw [toNat_checksum, toNat_checksumAcc, h, BitVec.toNat_not, List.foldl_cons, List.foldl_nil, sumStepNat, Nat.zero_add,
    if_neg (by omega)]

/-- The fold of the carry `(s & 0xFF) + (s >> 8)`, on a sum of the accumulator and a byte, as a number (R144 (a)). -/
theorem toNat_foldCarry {s : Acc} (h : s.toNat ≤ 510) :
    ((s &&& (0xFF : Acc)) + (s >>> 8)).toNat = s.toNat % 256 + s.toNat / 256 := by
  have hand : (s &&& 0xFF).toNat = s.toNat % 256 := (BitVec.toNat_and s 0xFF).trans (Nat.and_two_pow_sub_one_eq_mod _ 8)
  have hshift : (s >>> 8).toNat = s.toNat / 256 := by rw [BitVec.toNat_ushiftRight, Nat.shiftRight_eq_div_pow]
  rw [BitVec.toNat_add, hand, hshift]
  omega

/-! ## The frame in the buffer -/

theorem buf_getElem? (s : State) {i : Nat} (h : i < 11) : s.buf[i]? = some (s.readBuf i) := by
  simp [readBuf, h]

theorem buf_toList_getD (s : State) (i : Nat) : s.buf.toList.getD i 0 = s.readBuf i := by
  simp [readBuf]

theorem checksum_buf_two (s : State) : checksum s.buf.toList 2 = ~~~(s.readBuf 1) := by
  have hlen : 2 ≤ s.buf.toList.length := by simp
  apply checksum_of_summedBytes_singleton
  rw [summedBytes_eq_map hlen, ← buf_toList_getD]
  rfl

/-- Of a sequence that begins with a frame and its closing byte, the checksum over the frame is the frame's own. -/
theorem checksum_of_take_eq {B F : List Byte} {n : Nat} {c : Byte} (hlen : F.length = n)
    (h : B.take (n + 1) = F ++ [c]) : checksum B n = checksum F n := by
  have hF : B.take n = F.take n :=
    calc B.take n = (B.take (n + 1)).take n := by rw [List.take_take, Nat.min_eq_left n.le_succ]
      _ = F.take n := by rw [h, List.take_append_of_le_length hlen.ge]
  exact checksum_congr (by rw [summedBytes, summedBytes, hF])

/-- The closing byte of the frame the buffer begins with. -/
theorem readBuf_of_take_eq {s : State} {F : List Byte} {n : Nat} {c : Byte} (hlen : F.length = n)
    (h : s.buf.toList.take (n + 1) = F ++ [c]) : s.readBuf n = c := by
  have hget : s.buf.toList[n]? = some c :=
    calc s.buf.toList[n]? = (s.buf.toList.take (n + 1))[n]? := by simp
      _ = some c := by rw [h, ← hlen, List.getElem?_concat_length]
  rw [← buf_toList_getD, List.getD_eq_getElem?_getD, hget]
  rfl

/-! ## The statements -/

/-- Settles O44: `execChecksum` by its test of the operand. -/
theorem checksumReturnsTheFunction : Obligations.ChecksumReturnsTheFunction :=
  fun s _ => ⟨fun h => execChecksum_eq h s, fun h => execChecksum_refused h s⟩

/-- Settles O45: the fold over the bytes is the fold over their indices. -/
theorem checksumFollowsItsSteps : Obligations.ChecksumFollowsItsSteps := by
  intro B n h
  rw [toNat_checksum, toNat_checksumAcc, summedBytes_eq_map h, List.foldl_map]
  rfl

/-- Settles O46: the checksum is the complement of the end-around sum. -/
theorem checksumHasItsClosedForm : Obligations.ChecksumHasItsClosedForm := by
  intro B n S
  have hform : (checksum B n).toNat = 255 - endAroundSum S := toNat_checksum_eq_endAroundSum B n
  have hff : checksum B n = 0xFF ↔ (checksum B n).toNat = 255 := BitVec.toNat_eq
  have hzero : checksum B n = 0x00 ↔ (checksum B n).toNat = 0 := BitVec.toNat_eq
  refine ⟨?_, ⟨hff.trans ?_, hzero.trans ?_⟩, checksum_of_le_one B, checksumAcc_le B n⟩ <;>
    rw [hform, endAroundSum] <;> split <;> omega

/-- Settles O47: the plain sum does not depend on the order. -/
theorem checksumDependsOnlyOnTheSummedBytes : Obligations.ChecksumDependsOnlyOnTheSummedBytes := by
  intro B C n m h
  have hsum : ((summedBytes B n).map BitVec.toNat).sum = ((summedBytes C m).map BitVec.toNat).sum :=
    (h.map BitVec.toNat).sum_eq
  apply BitVec.eq_of_toNat_eq
  rw [toNat_checksum_eq_endAroundSum, toNat_checksum_eq_endAroundSum, hsum]

/-- Settles O48: both forms take 255 from a sum of 256 to 510 and keep a smaller one; the remainder takes 255 to 0. -/
theorem foldFormAgreesAndMod255Differs : Obligations.FoldFormAgreesAndMod255Differs := by
  refine ⟨fun acc b h => BitVec.eq_of_toNat_eq ?_, 0xFF, 0x00, by decide, by decide⟩
  have hacc : acc.toNat ≤ 255 := h
  have hb := b.isLt
  have hadd := toNat_acc_add b hacc
  rw [toNat_sumStep b hacc, toNat_foldCarry (by omega), hadd, sumStepNat]
  split <;> omega

/-- Settles O49: `execValidate` by its test of the operand, then by the comparison. -/
theorem validateComparesTheChecksums : Obligations.ValidateComparesTheChecksums := by
  refine fun s L => ⟨fun h2 h11 => ⟨fun h => ?_, fun h => ?_⟩, fun h => execValidate_refused h s⟩
  · rw [execValidate_eq ⟨h2, h11⟩, validation, verdictOf_of_eq h]
    rfl
  · rw [execValidate_eq ⟨h2, h11⟩, validation, verdictOf_of_ne h]
    rfl

/-- Settles O50: the three answers side by side; both compare the checksum with the same byte of the buffer. -/
theorem validateIsChecksumAndLastFrame : Obligations.ValidateIsChecksumAndLastFrame := by
  intro s L h2 h11
  have hpred : (L - 1).toNat = L.toNat - 1 := by bv_omega
  refine ⟨_, _, _, validation L s, checksum s.buf.toList (L - 1).toNat, s.buf, s.lastLen,
    execValidate_eq ⟨h2, h11⟩ s, rfl, execChecksum_eq (by omega) s, rfl, rfl, rfl, ?_⟩
  rw [validation, isMatch_verdictOf, hpred, buf_getElem? s (by omega), Option.some_inj]
  exact eq_comm

/-- Settles O51: computed and received are both the checksum of the frame. -/
theorem frameWithItsChecksumValidates : Obligations.FrameWithItsChecksumValidates := by
  intro s first pid data hdata h
  rw [Nat.add_comm 2] at h
  have hlen : (first :: pid :: data).length = data.length + 2 := rfl
  have hL : (BitVec.ofNat 4 (data.length + 3)).toNat = data.length + 3 := by
    rw [BitVec.toNat_ofNat]
    omega
  refine ⟨_, checksum (first :: pid :: data) (data.length + 2), execValidate_eq (by omega) s, ?_⟩
  rw [validation, hL, Nat.add_sub_assoc (by decide), checksum_of_take_eq hlen h, readBuf_of_take_eq hlen h,
    verdictOf_of_eq rfl]

/-- Settles O52: no byte is summed of a frame of two, and the PID alone of a frame of three. -/
theorem shortFramesValidateAsStated : Obligations.ShortFramesValidateAsStated := by
  refine fun s => ⟨⟨_, execValidate_eq (by decide) s, ?_⟩, ⟨_, execValidate_eq (by decide) s, ?_⟩⟩
  · rw [← checksum_of_le_one s.buf.toList le_rfl]
    rfl
  · rw [← checksum_buf_two s]
    rfl

end Sys2Proof.Machine
end

section
/-! PROOFS of the family on the exceptions: the rows a byte can take, what phase 1 stores and labels, and the
byte that comes before the silence. -/

namespace Sys2Proof.Machine
open State

/-! ## What phase 1 says of a break -/

/-- The rows a byte can take while no frame is ready: accepted, discarded, rejected, stored, and stored as the eleventh
(R105 to R109). -/
theorem byteRow_cases (pid b : Byte) {st : DecoderState} (len : Nat) (rest : List Byte) (hst : st ≠ .frameReady) :
    byteRow pid st len b rest = ⟨.accumulating, 1, some 0, none⟩ ∨
    byteRow pid st len b rest = ⟨.searchingSync, 0, none, some .syncMismatch⟩ ∨
    byteRow pid st len b rest = ⟨.searchingSync, 0, none, some .pidMismatch⟩ ∨
    byteRow pid st len b rest = ⟨.accumulating, len + 1, some len, none⟩ ∨
    byteRow pid st len b rest = ⟨.frameReady, 11, some 10, if rest = [] then none else some .overflow⟩ := by
  cases st with
  | searchingSync =>
    by_cases hb : b = 0x55
    · exact .inl (by rw [hb, byteRow_sync])
    · exact .inr (.inl (byteRow_discard pid len rest hb))
  | accumulating =>
    by_cases hrej : len = 1 ∧ pid ≠ 0x00 ∧ b ≠ pid
    · exact .inr (.inr (.inl (byteRow_reject rest hrej)))
    · by_cases h9 : len ≤ 9
      · exact .inr (.inr (.inr (.inl (byteRow_store rest hrej h9))))
      · exact .inr (.inr (.inr (.inr (byteRow_eleventh rest h9))))
  | frameReady => exact absurd rfl hst

/-- A row that stores no byte does not end in Accumulating (R105, R107). -/
theorem byteRow_st_ne_accumulating {pid b : Byte} {st : DecoderState} {len : Nat} {rest : List Byte}
    (hst : st ≠ .frameReady) (h : (byteRow pid st len b rest).index = none) :
    (byteRow pid st len b rest).st ≠ .accumulating := by
  rcases byteRow_cases pid b len rest hst with hrow | hrow | hrow | hrow | hrow <;> simp [hrow] at h ⊢

/-- No byte is a Break (R161, R110). -/
theorem byteRow_label_ne_breakSeen (pid b : Byte) {st : DecoderState} (len : Nat) (rest : List Byte)
    (hst : st ≠ .frameReady) : (byteRow pid st len b rest).label ≠ some .breakSeen := by
  rcases byteRow_cases pid b len rest hst with hrow | hrow | hrow | hrow | hrow <;> simp [hrow]

/-- A frame in progress after phase 1 means a stored byte, unless it was in progress before and no byte was at hand
(R106, R108). -/
theorem drainByTable_stored_of_accumulating {pid : Byte} {avail : List Byte} {st : DecoderState} {len : Nat}
    (hne : st = .accumulating → avail ≠ []) (h : (drainByTable pid st len avail).st = .accumulating) :
    (drainByTable pid st len avail).stored.length ≠ 0 := by
  induction avail generalizing st len with
  | nil => exact absurd rfl (hne h)
  | cons b rest ih =>
    by_cases hst : st = .frameReady
    · simp [hst, drainByTable_ready] at h
    · rw [drainByTable_cons hst rfl] at h ⊢
      cases hi : (byteRow pid st len b rest).index with
      | some i => simp
      | none => exact ih (fun hacc => absurd hacc (byteRow_st_ne_accumulating hst hi)) h

/-- Phase 1 emits no Break (R161, R110). -/
theorem breakSeen_notMem_drainByTable_labels (pid : Byte) (avail : List Byte) (st : DecoderState) (len : Nat) :
    .breakSeen ∉ (drainByTable pid st len avail).labels := by
  induction avail generalizing st len with
  | nil => simp [drainByTable]
  | cons b rest ih =>
    by_cases hst : st = .frameReady
    · simp [hst, drainByTable_ready]
    · rw [drainByTable_cons hst rfl]
      simp [byteRow_label_ne_breakSeen pid b len rest hst, ih]

/-- Where the break does not fire, a POLL emits Break only if phase 1 did (R110). -/
theorem breakSeen_notMem_finishByTable_trace {s : State} {d : Drained} (hfires : firesByTable s d = false)
    (h : .breakSeen ∉ d.labels) : .breakSeen ∉ (finishByTable s d).trace := by
  simp [finishByTable, hfires, h]

/-- A POLL that finds a byte and takes no time does not fire the break: if phase 1 ends with a frame in
progress, it has stored a byte and stamped `t_last` with the clock that the break check samples (R171, R202). -/
theorem firesByTable_of_byte {s : State} (pid : Byte) (hq : s.rxq ≠ []) (hlapses : s.lapses = [])
    (hlegal : s.cfg.Legal) : firesByTable s (drainByTable pid s.st s.len.toNat s.rxq) = false := by
  by_cases hacc : (drainByTable pid s.st s.len.toNat s.rxq).st = .accumulating
  · exact firesByTable_of_stored hlapses hlegal (drainByTable_stored_of_accumulating (fun _ => hq) hacc)
  · exact decide_eq_false fun ⟨h, _⟩ => hacc h

/-! ## The statement -/

/-- Settles O37: the break does not fire behind a byte that was at hand, and no byte emits a Break. -/
theorem waitingByteBeatsAnExpiredSilence : Obligations.WaitingByteBeatsAnExpiredSilence := by
  intro s pid hb hr hst hq hlapses hlegal
  have hexec := execPoll_eq_pollByTable pid hb hr fun hs => by simp [hst] at hs
  exact ⟨_, hexec, breakSeen_notMem_finishByTable_trace (firesByTable_of_byte pid hq hlapses hlegal)
    (breakSeen_notMem_drainByTable_labels pid s.rxq s.st s.len.toNat)⟩

end Sys2Proof.Machine
end

section
/-! PROOFS of the family on reset and hazards: the reset input, the command words that are legal, and where a step goes on
and where it is refused. -/

namespace Sys2Proof.Machine
open State

/-! ## The reset input -/

/-- Settles O2: between operations `fetch` takes the reset input, and `resetBlock` writes these values. -/
theorem resetInputClearsTheRegisters : Obligations.ResetInputClearsTheRegisters := by
  intro s rest hp hin
  have hfetch : fetch s = fetchInput s := by rw [fetch, hp]
  have hinput : fetchInput s = .quiet { s with inbox := rest }.resetBlock := by rw [fetchInput, hin]
  rw [step, hfetch, hinput, perform_quiet, resetBlock, hp]
  rfl

/-! ## The operations of the host that run -/

/-- A host operation that runs from a register state of the rules: POLL only when INIT has been performed (R193), the
others with their operands in range (R74). -/
def Admissible (bound : Bool) : Instr → Prop
  | .poll _ => bound = true
  | i => WellFormed i

/-- What a step may refuse a host for, U1 to U4. -/
inductive HostsMistake : Refusal → Prop where
  | pollBeforeInit : HostsMistake .pollBeforeInit
  | reservedOpcode (op : BitVec 4) : HostsMistake (.reservedOpcode op)
  | reservedArgBits : HostsMistake .reservedArgBits
  | checksumOperand : HostsMistake .checksumOperand
  | validateOperand : HostsMistake .validateOperand

theorem wellFormed_checksum {n : Len} : WellFormed (.checksum n) ↔ n.toNat ≤ 11 := by simp [WellFormed, Instr.check]

theorem wellFormed_validate {L : Len} : WellFormed (.validate L) ↔ 2 ≤ L.toNat ∧ L.toNat ≤ 11 := by
  simp [WellFormed, Instr.check]

/-- Admissible, a host operation goes on from every register state of the rules. -/
theorem execHost_goesOn {i : Instr} {s : State} (hi : i.isHost = true) (hr : RegistersInRules s)
    (h : Admissible s.bound i) : ∃ t, exec i s = .next t := by
  cases i with
  | bSyncAccept | bSyncDiscard | bPidReject | bStore | tBreak | deliver | dropShort => cases hi
  | init => exact ⟨_, rfl⟩
  | poll pid => exact ⟨_, execPoll_eq h hr⟩
  | lastFrame => exact ⟨_, rfl⟩
  | checksum n => exact ⟨_, execChecksum_eq (wellFormed_checksum.1 h) s⟩
  | validate L => exact ⟨_, execValidate_eq (wellFormed_validate.1 h) s⟩

/-- Not admissible, it is refused in every state: U1, U3, U4. -/
theorem execHost_refuses {i : Instr} {s : State} (hi : i.isHost = true) (h : ¬Admissible s.bound i) :
    ∃ r, HostsMistake r ∧ exec i s = .refused r := by
  cases i with
  | bSyncAccept | bSyncDiscard | bPidReject | bStore | tBreak | deliver | dropShort => cases hi
  | init => exact absurd rfl h
  | poll pid =>
    obtain ⟨hrefused, -⟩ := pollIsRefusedBeforeInitAndOutsideTheRules s pid
    exact ⟨_, .pollBeforeInit, hrefused (Bool.eq_false_iff.2 h)⟩
  | lastFrame => exact absurd rfl h
  | checksum n => exact ⟨_, .checksumOperand, execChecksum_refused (Nat.lt_of_not_le (mt wellFormed_checksum.2 h)) s⟩
  | validate L =>
    have hout : ¬(2 ≤ L.toNat ∧ L.toNat ≤ 11) := mt wellFormed_validate.2 h
    exact ⟨_, .validateOperand, execValidate_refused (by omega) s⟩

/-! ## Legal command words -/

/-- An `arg` with one of its high four bits set is out of every range (R74, R81). -/
theorem sixteen_le_cmdArg {w : Cmd} (h : w.extractLsb' 4 4 ≠ 0) : 16 ≤ (cmdArg w).toNat := by
  have hhigh : (w.extractLsb' 4 4).toNat = w.toNat / 16 % 16 := by
    rw [BitVec.extractLsb'_toNat, Nat.shiftRight_eq_div_pow]
  have harg : (cmdArg w).toNat = w.toNat % 256 := BitVec.extractLsb'_toNat ..
  have hne : (w.extractLsb' 4 4).toNat ≠ 0 := fun h0 => h (BitVec.eq_of_toNat_eq h0)
  omega

/-- An operand of four bits that does not decode has one of the high four bits of `arg` set (R81). -/
theorem nibbleOperand_error {w : Cmd} {mk : Len → Instr} {r : DecodeError} (h : nibbleOperand w mk = .error r) :
    w.extractLsb' 4 4 ≠ 0 ∧ r = .reservedArgBits := by
  by_cases hz : w.extractLsb' 4 4 = 0
  · rw [nibbleOperand_of_zero hz] at h
    cases h
  · rw [nibbleOperand_of_ne_zero hz] at h
    exact ⟨hz, (Except.error.inj h).symm⟩

/-- A word that does not decode has a reserved opcode, or CHECKSUM's or VALIDATE's with a reserved bit of `arg` set
(R80, R81). -/
theorem decodeCmd_error {w : Cmd} {r : DecodeError} (h : decodeCmd w = .error r) :
    (5 ≤ (cmdOp w).toNat ∧ r = .reservedOpcode (cmdOp w)) ∨
    ((cmdOp w = 3 ∨ cmdOp w = 4) ∧ w.extractLsb' 4 4 ≠ 0 ∧ r = .reservedArgBits) := by
  have hop {k : BitVec 4} (hk : (cmdOp w).toNat = k.toNat) : cmdOp w = k := BitVec.eq_of_toNat_eq hk
  unfold decodeCmd at h
  split at h
  next => cases h
  next => cases h
  next => cases h
  next h3 => exact .inr ⟨.inl (hop h3), nibbleOperand_error h⟩
  next h4 => exact .inr ⟨.inr (hop h4), nibbleOperand_error h⟩
  next h0 h1 h2 h3 h4 =>
    rw [imp_false] at h0 h1 h2 h3 h4
    exact .inl ⟨by omega, (Except.error.inj h).symm⟩

/-- A word that decodes is legal exactly when its operation is admissible (R74, R193). -/
theorem legalCommand_iff_admissible {bound : Bool} {w : Cmd} {i : Instr} (h : decodeCmd w = .ok i) :
    LegalCommand bound w ↔ Admissible bound i := by
  have hnat (n : Len) : (n.setWidth 8).toNat = n.toNat := BitVec.toNat_setWidth_of_le (by decide)
  rcases decodeCmd_ok h with ⟨hop, rfl⟩ | ⟨hop, rfl⟩ | ⟨hop, rfl⟩ | ⟨hop, n, harg, rfl⟩ | ⟨hop, L, harg, rfl⟩
  · rw [LegalCommand, hop]
    exact iff_of_true trivial rfl
  · rw [LegalCommand, hop]
    exact Iff.rfl
  · rw [LegalCommand, hop]
    exact iff_of_true trivial rfl
  · rw [LegalCommand, hop, harg, hnat]
    exact wellFormed_checksum.symm
  · rw [LegalCommand, hop, harg, hnat]
    exact wellFormed_validate.symm

/-- A word that does not decode is not legal, and its refusal is the host's mistake (U2 to U4). -/
theorem illegal_of_decodeCmd_error {w : Cmd} {r : DecodeError} (h : decodeCmd w = .error r) (bound : Bool) :
    ¬LegalCommand bound w ∧ HostsMistake (refusalOf r) := by
  rcases decodeCmd_error h with ⟨h5, rfl⟩ | ⟨hop, hbits, rfl⟩
  · obtain ⟨k, hk⟩ := Nat.exists_eq_add_of_le' h5
    refine ⟨?_, .reservedOpcode _⟩
    rw [LegalCommand, hk]
    exact not_false
  · have h16 := sixteen_le_cmdArg hbits
    refine ⟨?_, .reservedArgBits⟩
    rcases hop with hop | hop
    · rw [LegalCommand, hop]
      show ¬(cmdArg w).toNat ≤ 11
      omega
    · rw [LegalCommand, hop]
      show ¬(2 ≤ (cmdArg w).toNat ∧ (cmdArg w).toNat ≤ 11)
      omega

/-! ## The step that takes a command word -/

section Command
variable {s : State} {w : Cmd} {rest : List Input} (hp : s.poll = none) (hin : s.inbox = .cmd w :: rest)
include hp hin

/-- From a register state of the rules a legal command runs (R193, R196). -/
theorem step_goesOn_of_legal (hr : RegistersInRules s) (hlegal : LegalCommand s.bound w) :
    ∃ t, step s = .next t := by
  cases hd : decodeCmd w with
  | ok i =>
    rw [stepRunsTheCommand s w rest i hp hin hd]
    exact execHost_goesOn (isHost_of_decodeCmd hd) hr ((legalCommand_iff_admissible hd).1 hlegal)
  | error r =>
    obtain ⟨hillegal, -⟩ := illegal_of_decodeCmd_error hd s.bound
    exact absurd hlegal hillegal

/-- An illegal command is refused as the host's mistake, whatever the registers hold (U1 to U4). -/
theorem step_refuses_of_illegal (hillegal : ¬LegalCommand s.bound w) :
    ∃ r, HostsMistake r ∧ step s = .refused r := by
  cases hd : decodeCmd w with
  | ok i =>
    rw [stepRunsTheCommand s w rest i hp hin hd]
    exact execHost_refuses (isHost_of_decodeCmd hd) (mt (legalCommand_iff_admissible hd).2 hillegal)
  | error r =>
    obtain ⟨-, hmistake⟩ := illegal_of_decodeCmd_error hd s.bound
    exact ⟨_, hmistake, step_of_decodeCmd_error hp hin hd⟩

end Command

/-! ## Where a step goes on and where it is refused -/

/-- Inputs of the environment, the reset input and an empty input list are taken in every state. -/
theorem step_goesOn_of_no_command {s : State} (hp : s.poll = none)
    (h : ∀ (w : Cmd) (rest : List Input), s.inbox ≠ .cmd w :: rest) : ∃ t, step s = .next t := by
  obtain ⟨hrx, htick, hempty⟩ := environmentTouchesOnlyQueueAndClock s hp
  cases hin : s.inbox with
  | nil => exact ⟨_, hempty hin⟩
  | cons input rest =>
    cases input with
    | cmd w => exact absurd hin (h w rest)
    | rx b => exact ⟨_, hrx b rest hin⟩
    | tick d => exact ⟨_, htick d rest hin⟩
    | reset => exact ⟨_, resetInputClearsTheRegisters s rest hp hin⟩

/-- The next input, where it is taken, is no illegal command word (R61, R196). -/
def NoIllegalCommand (s : State) : Prop :=
  s.poll = none → ∀ (w : Cmd) (rest : List Input), s.inbox = .cmd w :: rest → LegalCommand s.bound w

/-- Without an illegal command to take, a step goes on from every register state of the rules, inside a POLL too. -/
theorem step_goesOn_of_noIllegalCommand {s : State} (hr : RegistersInRules s) (h : NoIllegalCommand s) :
    ∃ t, step s = .next t := by
  by_cases hp : s.poll = none
  · by_cases hcmd : ∃ (w : Cmd) (rest : List Input), s.inbox = .cmd w :: rest
    · obtain ⟨w, rest, hin⟩ := hcmd
      exact step_goesOn_of_legal hp hin hr (h hp w rest hin)
    · exact step_goesOn_of_no_command hp fun w rest hin => hcmd ⟨w, rest, hin⟩
  · exact step_inPoll_goesOn hp hr

theorem step_refuses_of_illegalCommand {s : State} (h : ¬NoIllegalCommand s) :
    ∃ r, HostsMistake r ∧ step s = .refused r := by
  simp only [NoIllegalCommand, not_forall] at h
  obtain ⟨hp, w, rest, hin, hillegal⟩ := h
  exact step_refuses_of_illegal hp hin hillegal

/-! ## The statements -/

/-- Settles O15: a legal command runs, an illegal one is refused, and nothing else is ever refused. -/
theorem stepGoesOnExactlyAfterLegalCommands : Obligations.StepGoesOnExactlyAfterLegalCommands := by
  refine fun s h => ⟨fun ⟨t, ht⟩ => by_contra fun hillegal => ?_, step_goesOn_of_noIllegalCommand h.inRules⟩
  obtain ⟨r, -, hr⟩ := step_refuses_of_illegalCommand hillegal
  cases ht.symm.trans hr

/-- Settles O57: a step that is refused had an illegal command word to take, and is refused for it. -/
theorem refusalsAreTheHostsMistakes : Obligations.RefusalsAreTheHostsMistakes := by
  intro s r h hstep
  by_cases hlegal : NoIllegalCommand s
  · obtain ⟨t, ht⟩ := step_goesOn_of_noIllegalCommand h.inRules hlegal
    cases ht.symm.trans hstep
  · obtain ⟨r', hmistake, hr⟩ := step_refuses_of_illegalCommand hlegal
    obtain rfl := Host.Outcome.refused.inj (hr.symm.trans hstep)
    cases hmistake with
    | pollBeforeInit => exact .inl rfl
    | reservedOpcode op => exact .inr (.inl ⟨op, rfl⟩)
    | reservedArgBits => exact .inr (.inr (.inl rfl))
    | checksumOperand => exact .inr (.inr (.inr (.inl rfl)))
    | validateOperand => exact .inr (.inr (.inr (.inr rfl)))

end Sys2Proof.Machine
end
